-- ==== Sys2Proof/Word.lean ====
section
/-! DEFINITION. The words of the DR16 block: a byte of the serial stream, the 144-bit frame word `W`
(rules R6, R60) and the 12-bit input event word `EVT12` (rule R69). -/

namespace Sys2Proof

/-- One byte of the serial stream, or one cell of the frame buffer (R21). -/
abbrev Byte := BitVec 8

/-- The frame word `W`: 18 bytes as one little-endian 144-bit value (R6, R60). -/
abbrev FrameWord := BitVec 144

/-- The input event word `EVT12 = rst ++ mon ++ resume ++ rx_valid ++ rx_data` (R69). -/
abbrev EvtWord := BitVec 12

end Sys2Proof
end

