-- ==== Sys2Proof/Config.lean ====
section
/-! DEFINITION. The parameters of rule R5: the constants hardwired in the block (R30), and the two OPEN
parameters as values nothing in Lean can compute. -/

namespace Sys2Proof

/-- `FRAME_BYTES` (R5): bytes in one frame. -/
@[simp] abbrev Config.frameBytes : Nat := 18

/-- `FRAME_BITS` (R5): bits in one frame. -/
@[simp] abbrev Config.frameBits : Nat := 144

/-- `CH_MIN` (R5): smallest channel value the gate accepts. -/
@[simp] abbrev Config.chMin : Nat := 364

/-- `CH_MAX` (R5): largest channel value the gate accepts. -/
@[simp] abbrev Config.chMax : Nat := 1684

/-- `CH_CENTER` (R5): the resting value of a channel; informative, no rule of the block reads it. -/
@[simp] abbrev Config.chCenter : Nat := 1024

/-- `SW_INVALID` (R5): the switch code reserved as "invalid/no-signal". -/
@[simp] abbrev Config.swInvalid : Nat := 0

/-- `N_KEYS` (R5): physical keys, one bit each of `key_mask`. -/
@[simp] abbrev Config.nKeys : Nat := 16

/-- `N_KEY_IDX` (R5): key indices with a stated identity. -/
@[simp] abbrev Config.nKeyIdx : Nat := 20

/-- The settings of the serial line that rule R154 names ("baud rate, parity, byte size, stop bits"). -/
structure SerialCfg where
  baudRate : Nat
  parity   : Nat
  byteSize : Nat
  stopBits : Nat
  deriving DecidableEq, Repr, Inhabited

/-- `T_RECOVER` (R5, OPEN): the fixed recovery delay. No rule of the block reads it (R151). UNVERIFIED value,
left without a body; safe (log 13). -/
opaque Config.tRecover : Nat

/-- `SERIAL_CFG` (R5, OPEN): the transport's settings, outside the block. UNVERIFIED value, left without a
body; safe (log 13). -/
opaque Config.serialCfg : SerialCfg

end Sys2Proof
end

