-- ==== Sys2Proof/Syntax.lean ====
section
/-! DEFINITION. The operations of the block (rule R72): one constructor per row of spec/opcode_table.json, with the
operands its rule gives it; their formats and mnemonics; the loop states that select some of them (R23); the input
events (R69); and the names of switch codes and keys (R67, R68). -/

namespace Sys2Proof

/-- The loop state `fsm` (R23). -/
inductive Fsm where
  | reading
  | recovering
  deriving DecidableEq, Repr

/-- An operation of the block (R72). A FRAME144 operation's operand is the frame word `W` (log 20). -/
inductive Instr where
  /-- `UNPK.CHRX` (R80). -/
  | unpkChrx (w : FrameWord)
  /-- `UNPK.CHRY` (R81). -/
  | unpkChry (w : FrameWord)
  /-- `UNPK.CHLX` (R82). -/
  | unpkChlx (w : FrameWord)
  /-- `UNPK.CHLY` (R83). -/
  | unpkChly (w : FrameWord)
  /-- `UNPK.SWR` (R84). -/
  | unpkSwr (w : FrameWord)
  /-- `UNPK.SWL` (R85). -/
  | unpkSwl (w : FrameWord)
  /-- `UNPK.MX` (R86). -/
  | unpkMx (w : FrameWord)
  /-- `UNPK.MY` (R87). -/
  | unpkMy (w : FrameWord)
  /-- `UNPK.MZ` (R88). -/
  | unpkMz (w : FrameWord)
  /-- `UNPK.MPL` (R89). -/
  | unpkMpl (w : FrameWord)
  /-- `UNPK.MPR` (R90). -/
  | unpkMpr (w : FrameWord)
  /-- `UNPK.KEY` (R91). -/
  | unpkKey (w : FrameWord)
  /-- `UNPK.RES` (R92). -/
  | unpkRes (w : FrameWord)
  /-- `UNPACK`, the source's `decode` (R93). -/
  | unpack (w : FrameWord)
  /-- `KEYHELD` (R94): a key index and a key mask, both from the consumer. -/
  | keyheld (i : Nat) (mask : BitVec 16)
  /-- `CHK.RX` (R100). -/
  | chkRx (w : FrameWord)
  /-- `CHK.RY` (R101). -/
  | chkRy (w : FrameWord)
  /-- `CHK.LX` (R102). -/
  | chkLx (w : FrameWord)
  /-- `CHK.LY` (R103). -/
  | chkLy (w : FrameWord)
  /-- `CHK.SWR` (R104). -/
  | chkSwr (w : FrameWord)
  /-- `CHK.SWL` (R105). -/
  | chkSwl (w : FrameWord)
  /-- `CORRUPT`, the source's `is_corrupted` (R106). -/
  | corrupt (w : FrameWord)
  /-- `RXB` (R120): receive one byte. -/
  | rxb (b : Byte)
  /-- `EVAL.ACCEPT` (R122). -/
  | evalAccept
  /-- `EVAL.REJECT` (R143). -/
  | evalReject
  /-- `RESUME` (R144). -/
  | resume
  /-- `MON` (R123). -/
  | mon
  /-- `IDLE` (R124). -/
  | idle
  /-- `RST` (R170). -/
  | rst
  deriving DecidableEq, Repr

/-- The format column of the operation table (R72). -/
inductive Format where
  | frame144
  | query
  | evt12
  | internal
  deriving DecidableEq, Repr

/-- An operation's format (R72). -/
def Instr.format : Instr → Format
  | .unpkChrx _ | .unpkChry _ | .unpkChlx _ | .unpkChly _ | .unpkSwr _ | .unpkSwl _ | .unpkMx _ | .unpkMy _
  | .unpkMz _ | .unpkMpl _ | .unpkMpr _ | .unpkKey _ | .unpkRes _ | .unpack _ | .chkRx _ | .chkRy _ | .chkLx _
  | .chkLy _ | .chkSwr _ | .chkSwl _ | .corrupt _ => .frame144
  | .keyheld _ _ => .query
  | .rxb _ | .resume | .mon | .idle | .rst => .evt12
  | .evalAccept | .evalReject => .internal

/-- An operation's mnemonic as the table spells it (R72). -/
def Instr.mnemonic : Instr → String
  | .unpkChrx _ => "UNPK.CHRX"
  | .unpkChry _ => "UNPK.CHRY"
  | .unpkChlx _ => "UNPK.CHLX"
  | .unpkChly _ => "UNPK.CHLY"
  | .unpkSwr _ => "UNPK.SWR"
  | .unpkSwl _ => "UNPK.SWL"
  | .unpkMx _ => "UNPK.MX"
  | .unpkMy _ => "UNPK.MY"
  | .unpkMz _ => "UNPK.MZ"
  | .unpkMpl _ => "UNPK.MPL"
  | .unpkMpr _ => "UNPK.MPR"
  | .unpkKey _ => "UNPK.KEY"
  | .unpkRes _ => "UNPK.RES"
  | .unpack _ => "UNPACK"
  | .keyheld _ _ => "KEYHELD"
  | .chkRx _ => "CHK.RX"
  | .chkRy _ => "CHK.RY"
  | .chkLx _ => "CHK.LX"
  | .chkLy _ => "CHK.LY"
  | .chkSwr _ => "CHK.SWR"
  | .chkSwl _ => "CHK.SWL"
  | .corrupt _ => "CORRUPT"
  | .rxb _ => "RXB"
  | .evalAccept => "EVAL.ACCEPT"
  | .evalReject => "EVAL.REJECT"
  | .resume => "RESUME"
  | .mon => "MON"
  | .idle => "IDLE"
  | .rst => "RST"

/-- One item the outside world presents: a cycle's event word (R69), or a consumer's key query (R94, log 6). -/
inductive Input where
  | evt (e : EvtWord)
  | query (i : Nat) (mask : BitVec 16)
  deriving DecidableEq, Repr

/-- What a byte image decodes to before the loop state is looked at: an input, or a whole frame (log 12). -/
inductive Packet where
  | input (x : Input)
  | frame (w : FrameWord)
  deriving DecidableEq, Repr

/-- The names rule R67 gives the 2-bit switch codes; no operation reads them. DESIGN CHOICE of the spec (D8), safe
(log 16). -/
inductive SwitchPosition where
  | invalid
  | top
  | bottom
  | middle
  deriving DecidableEq, Repr

/-- The key identities of rule R68 with an index below 20, in index order. -/
inductive Key where
  | w | s | a | d | shift | ctrl | q | e | r | f | g | z | x | c | v | b
  | mouseLeftPress | mouseRightPress | mouseLeftRelease | mouseRightRelease
  deriving DecidableEq, Repr

end Sys2Proof
end

