-- ==== Sys2Proof/WellFormed.lean ====
section
/-! DEFINITION. Which instruction terms the spec gives an encoding or a result: every frame word and every received
byte is legal (R66, R120); a key query names an index below 20 (R94). -/

namespace Sys2Proof

/-- A term the spec defines. The one restriction is `KEYHELD`'s domain, `0 <= i <= 19` (R94). -/
def Instr.wellFormed : Instr → Bool
  | .keyheld i _ => decide (i < Config.nKeyIdx)
  | .unpkChrx _ | .unpkChry _ | .unpkChlx _ | .unpkChly _ | .unpkSwr _ | .unpkSwl _ | .unpkMx _ | .unpkMy _
  | .unpkMz _ | .unpkMpl _ | .unpkMpr _ | .unpkKey _ | .unpkRes _ | .unpack _ | .chkRx _ | .chkRy _ | .chkLx _
  | .chkLy _ | .chkSwr _ | .chkSwl _ | .corrupt _ => true
  | .rxb _ | .resume | .mon | .idle | .rst => true
  | .evalAccept | .evalReject => true

end Sys2Proof
end

