-- ==== Sys2Proof/Decode.lean ====
section
/-! DEFINITION. Selection of operations: the event word's selection by loop state (rule R69), the operations every frame
selects (R72), the byte images of the formats (log 12), the decoder over them, total and rejecting by name, and the
encoder. -/

namespace Sys2Proof

/-- Little-endian value of a byte list (R40, `MemRead` of R7). -/
def leNat : List Byte → Nat
  | [] => 0
  | b :: rest => b.toNat + 256 * leNat rest

/-- The low `n` bytes of a number, low byte first: byte `i` is `(v >> 8 i) & 0xFF` (R65). -/
def bytesOf : Nat → Nat → List Byte
  | 0, _ => []
  | n + 1, v => BitVec.ofNat 8 v :: bytesOf n (v / 256)

/-- The frame word of a byte sequence, first byte lowest (R6). -/
def frameOf (bs : List Byte) : FrameWord := BitVec.ofNat 144 (leNat bs)

/-- Wire `rst`, bit 11 of the event word (R69). -/
def evtRst (e : EvtWord) : Bool := e.getLsbD 11

/-- Wire `mon`, bit 10 of the event word (R69). -/
def evtMon (e : EvtWord) : Bool := e.getLsbD 10

/-- Wire `resume`, bit 9 of the event word (R69). -/
def evtResume (e : EvtWord) : Bool := e.getLsbD 9

/-- Wire `rx_valid`, bit 8 of the event word (R69). -/
def evtRxValid (e : EvtWord) : Bool := e.getLsbD 8

/-- Bus `rx_data`, bits 7..0 of the event word (R69). -/
def evtRxData (e : EvtWord) : Byte := e.extractLsb' 0 8

/-- The step a cycle takes: an operation, or the dispatch `EVAL` (R121), which has no row of its own. -/
inductive Selected where
  | op (i : Instr)
  | eval
  deriving DecidableEq, Repr

/-- Rule R69's selection: the step of a cycle with word `e` in loop state `(fsm, cnt)`. -/
def selectEvt (fsm : Fsm) (cnt : Nat) (e : EvtWord) : Selected :=
  if evtRst e then .op .rst
  else if fsm = .reading ∧ cnt = Config.frameBytes then .eval
  else if evtRxValid e = true ∧ fsm = .reading ∧ cnt < Config.frameBytes then .op (.rxb (evtRxData e))
  else if evtResume e = true ∧ fsm = .recovering then .op .resume
  else .op .idle

/-- `MON` accompanies the cycle's step when `mon` is 1 and `rst` is 0 (R69, R72). -/
def monOps (e : EvtWord) : List Instr := if evtMon e && !evtRst e then [.mon] else []

/-- The operations that every frame selects, in the order of rule R72. -/
def frameOps (w : FrameWord) : List Instr :=
  [.unpkChrx w, .unpkChry w, .unpkChlx w, .unpkChly w, .unpkSwr w, .unpkSwl w, .unpkMx w, .unpkMy w, .unpkMz w,
   .unpkMpl w, .unpkMpr w, .unpkKey w, .unpkRes w, .unpack w, .chkRx w, .chkRy w, .chkLx w, .chkLy w, .chkSwr w,
   .chkSwl w, .corrupt w]

/-- Why a byte image stands for no operation. -/
inductive DecodeReject where
  /-- A two-byte image with a bit above bit 11 set: `EVT12` has twelve bits (R69). -/
  | evtTooWide
  /-- A query image whose key index is 20 or more (R94). -/
  | keyIndexUndefined
  /-- A byte count of no format. -/
  | noSuchLength (n : Nat)
  deriving DecidableEq, Repr

/-- The packet a byte image stands for: two bytes an event word, three bytes a query (index, then mask), eighteen bytes a
frame, little-endian. DESIGN CHOICE for the first two, the spec having wires and not bytes there; safe (log 12). -/
def decodePacket (bs : List Byte) : Except DecodeReject Packet :=
  match bs with
  | [lo, hi] => if hi.toNat < 16 then .ok (.input (.evt (BitVec.ofNat 12 (leNat [lo, hi])))) else .error .evtTooWide
  | [i, m0, m1] =>
    if i.toNat < Config.nKeyIdx then .ok (.input (.query i.toNat (BitVec.ofNat 16 (leNat [m0, m1]))))
    else .error .keyIndexUndefined
  | _ => if bs.length = Config.frameBytes then .ok (.frame (frameOf bs)) else .error (.noSuchLength bs.length)

/-- The rows of the operation table that a packet selects in loop state `(fsm, cnt)`. `EVAL` stands for both of its
outcomes, which `buf` decides between (R126). -/
def rowsOf (fsm : Fsm) (cnt : Nat) : Packet → List Instr
  | .input (.evt e) =>
    monOps e ++ match selectEvt fsm cnt e with
      | .op i => [i]
      | .eval => [.evalAccept, .evalReject]
  | .input (.query i m) => [.keyheld i m]
  | .frame w => frameOps w

/-- The decoder: the operations that a byte image selects in loop state `(fsm, cnt)`, or why there are none. -/
def decode (fsm : Fsm) (cnt : Nat) (bs : List Byte) : Except DecodeReject (List Instr) :=
  match decodePacket bs with
  | .ok p => .ok (rowsOf fsm cnt p)
  | .error r => .error r

/-- The bytes of an instruction: the frame itself for a FRAME144 row, the row's match word with its operand for an
EVT12 or INTERNAL row, index and mask for a query. -/
def encode : Instr → List Byte
  | .unpkChrx w | .unpkChry w | .unpkChlx w | .unpkChly w | .unpkSwr w | .unpkSwl w | .unpkMx w | .unpkMy w
  | .unpkMz w | .unpkMpl w | .unpkMpr w | .unpkKey w | .unpkRes w | .unpack w | .chkRx w | .chkRy w | .chkLx w
  | .chkLy w | .chkSwr w | .chkSwl w | .corrupt w => bytesOf 18 w.toNat
  | .keyheld i m => BitVec.ofNat 8 i :: bytesOf 2 m.toNat
  | .rxb b => bytesOf 2 (0x100 + b.toNat)
  | .evalAccept => bytesOf 2 0x000
  | .evalReject => bytesOf 2 0x000
  | .resume => bytesOf 2 0x200
  | .mon => bytesOf 2 0x400
  | .idle => bytesOf 2 0x000
  | .rst => bytesOf 2 0x800

/-- A loop state in which the encoded word selects the operation: the "selected by" column of rule R72. -/
def homeOf : Instr → Fsm × Nat
  | .evalAccept | .evalReject => (.reading, Config.frameBytes)
  | .resume => (.recovering, 0)
  | _ => (.reading, 0)

/-- The loop state in which an event word selects the operation its own bits ask for: `RECOVERING` for a `resume` with
no byte, else `READING` (R69). -/
def evtHome (e : EvtWord) : Fsm :=
  if evtRst e = false ∧ evtRxValid e = false ∧ evtResume e = true then .recovering else .reading

/-- The one row an event word is read as: the step it selects in its home state, or `MON` where that is `IDLE` and
`mon` is 1. -/
def evtRow (e : EvtWord) : Instr :=
  match selectEvt (evtHome e) 0 e with
  | .op .idle => if evtMon e then .mon else .idle
  | .op i => i
  | .eval => .idle

/-- The instruction's bytes as they are stored, from the table's numbering of its bits: two bytes for an event word,
eighteen for a frame. -/
def tableBytes (nbits w : Nat) : List Byte :=
  if nbits ≤ 16 then bytesOf 2 w else bytesOf 18 w

/-- The one row a packet is read as: an event word's own row, a frame's `UNPACK`, which reads all 144 bits (log 11). -/
def rowOfPacket : Packet → Instr
  | .input (.evt e) => evtRow e
  | .input (.query i m) => .keyheld i m
  | .frame w => .unpack w

/-- The instruction the decoder reads from a word numbered as spec/opcode_table.json numbers it; none where it
refuses. DESIGN CHOICE where several rows share the word, safe (log 11). -/
def decodeTableWord (nbits w : Nat) : Option Instr :=
  if w < 2 ^ nbits ∧ nbits ≤ Config.frameBits then
    match decodePacket (tableBytes nbits w) with
    | .ok p => some (rowOfPacket p)
    | .error _ => none
  else none

end Sys2Proof
end

