-- ==== Sys2Proof/Machine/State.lean ====
section
/-! DEFINITION. The state of the block (rule R20): loop state, byte counter, frame buffer, decoded view; beside it the
output trace (R25), and the model's own two fields, the wires of the step just done (log 2) and what the outside world
will present (log 1). Its value after reset (R33). -/

namespace Sys2Proof.Machine

/-- The frame buffer as a memory (R21, R31): the cells that hold a value, addresses rising; an unlisted cell holds no
value (R33, log 3). -/
abbrev Memory := List Host.Cell

/-- The canonical form: addresses strictly rising, all of them in the buffer's space `0..17` (R31). -/
abbrev Memory.wf (m : Memory) : Prop :=
  m.Pairwise (fun c d => c.1 < d.1) ∧ ∀ c ∈ m, c.1 < Config.frameBytes

/-- A DecodedFrame (R24). The mouse deltas are signed integers (D6). -/
structure DecodedFrame where
  chRX        : BitVec 11
  chRY        : BitVec 11
  chLX        : BitVec 11
  chLY        : BitVec 11
  swR         : BitVec 2
  swL         : BitVec 2
  mouseX      : Int
  mouseY      : Int
  mouseZ      : Int
  mousePressL : BitVec 8
  mousePressR : BitVec 8
  keyMask     : BitVec 16
  reserved    : BitVec 16
  deriving DecidableEq, Repr

/-- The ranges of rule R24 that the field types do not carry: the three mouse deltas lie in `-32768..32767`. -/
abbrev DecodedFrame.InRange (d : DecodedFrame) : Prop :=
  (-32768 ≤ d.mouseX ∧ d.mouseX ≤ 32767) ∧ (-32768 ≤ d.mouseY ∧ d.mouseY ≤ 32767) ∧
    (-32768 ≤ d.mouseZ ∧ d.mouseZ ≤ 32767)

/-- An output event (R8, R70). -/
inductive OutEvent where
  | pub (d : DecodedFrame)
  | resync
  deriving DecidableEq, Repr

/-- The block's combinational wires in the step just performed, each absent if the step did not evaluate it: the field
extractions (R80 to R93), the checks (R100 to R106, R27), a query's answer (R94), and the output wires of rule R70.
The model's own observation, read by no operation (log 2). -/
structure Wires where
  chRX        : Option (BitVec 11) := none
  chRY        : Option (BitVec 11) := none
  chLX        : Option (BitVec 11) := none
  chLY        : Option (BitVec 11) := none
  swR         : Option (BitVec 2) := none
  swL         : Option (BitVec 2) := none
  mouseX      : Option Int := none
  mouseY      : Option Int := none
  mouseZ      : Option Int := none
  mousePressL : Option (BitVec 8) := none
  mousePressR : Option (BitVec 8) := none
  keyMask     : Option (BitVec 16) := none
  reserved    : Option (BitVec 16) := none
  decoded     : Option DecodedFrame := none
  badRx       : Option Bool := none
  badRy       : Option Bool := none
  badLx       : Option Bool := none
  badLy       : Option Bool := none
  badSwr      : Option Bool := none
  badSwl      : Option Bool := none
  corrupt     : Option Bool := none
  keyHeld     : Option Bool := none
  /-- `pub_valid` and the thirteen `pub_*` buses: present exactly when `pub_valid` is 1 (R70, log 17). -/
  pub         : Option DecodedFrame := none
  /-- `resync_req` (R70). -/
  resyncReq   : Bool := false
  deriving DecidableEq, Repr

/-- No wire driven: `pub_valid` and `resync_req` are 0. -/
def Wires.quiet : Wires := {}

/-- The machine's state (R20, R25, and the model's own `wires` and `input`). -/
structure State where
  /-- Loop state (R23). -/
  fsm   : Fsm
  /-- Bytes of the current frame already stored, `0..18` (R22). -/
  cnt   : Nat
  /-- Frame buffer (R21). -/
  buf   : Memory
  /-- Decoded view (R24); `none` is rule R33's "each field holds no value" (log 4). -/
  view  : Option DecodedFrame
  /-- Output trace since the last `RST`, oldest first (R25). -/
  trace : List OutEvent
  /-- The model's own: the wires of the step just done (log 2). -/
  wires : Wires
  /-- The model's own: what the outside world will present, next item first (log 1). -/
  input : List Input
  deriving DecidableEq, Repr

/-- Why the machine stops with a fault. -/
inductive Fault where
  /-- Raised by `EVAL.ACCEPT`, `EVAL.REJECT` and the `EVAL` of a cycle when `cnt = 18` but a cell of the frame buffer
  holds no value. No reachable state has it (R127 (c)). Safe (log 3). -/
  | emptyCell
  deriving DecidableEq, Repr

/-- Why the machine refuses an operation. -/
inductive Refusal where
  /-- An instruction without a meaning yet. Raised by `exec`'s refused arms only. Safe. -/
  | notModelled (mnemonic : String)
  /-- Raised by `KEYHELD` at a key index of 20 or more, which "the model must refuse" (R94, U8). Safe (log 7). -/
  | keyIndexUndefined
  deriving DecidableEq, Repr

/-- What a step or a meaning answers. -/
abbrev Result := Host.Outcome State Fault Refusal

/-- The reset state (R33): `READING`, no byte received, no cell and no view field holding a value, the trace empty;
nothing on the wires and nothing presented (DESIGN CHOICE for the model's own two fields, safe, logs 1, 2). -/
def State.reset : State where
  fsm := .reading
  cnt := 0
  buf := []
  view := none
  trace := []
  wires := Wires.quiet
  input := []

end Sys2Proof.Machine
end

