-- ==== Sys2Proof/Machine/Operands.lean ====
section
/-! DEFINITION. Field assembly: the thirteen fields of the frame word (rules R61 to R64), the whole decode (R93), its
inverse `PACK` (R65), the key query (R94), and the names of codes and keys (R67, R68). -/

namespace Sys2Proof.Machine

/-- A 16-bit pattern read as two's complement (`sext_16` of R7). PRESUMED by the spec (G1, D7), unsafe (log 8). -/
def sext16 (p : BitVec 16) : Int :=
  if p.toNat < 32768 then (p.toNat : Int) else (p.toNat : Int) - 65536

/-- The 16-bit pattern of a signed value, `s mod 2^16` (`u16` of R65). -/
def u16 (s : Int) : Nat := (s % 65536).toNat

/-- `ch_r_x = W[10:0]` (R61, R80). -/
def fieldChRX (w : FrameWord) : BitVec 11 := w.extractLsb' 0 11

/-- `ch_r_y = W[21:11]` (R61, R81). -/
def fieldChRY (w : FrameWord) : BitVec 11 := w.extractLsb' 11 11

/-- `ch_l_x = W[32:22]` (R61, R82). -/
def fieldChLX (w : FrameWord) : BitVec 11 := w.extractLsb' 22 11

/-- `ch_l_y = W[43:33]` (R61, R83). -/
def fieldChLY (w : FrameWord) : BitVec 11 := w.extractLsb' 33 11

/-- `sw_r = W[45:44]` (R61, R84; C1). -/
def fieldSwR (w : FrameWord) : BitVec 2 := w.extractLsb' 44 2

/-- `sw_l = W[47:46]` (R61, R85; C1). -/
def fieldSwL (w : FrameWord) : BitVec 2 := w.extractLsb' 46 2

/-- `mouse_x = sext_16(W[63:48])` (R61, R86). -/
def fieldMouseX (w : FrameWord) : Int := sext16 (w.extractLsb' 48 16)

/-- `mouse_y = sext_16(W[79:64])` (R61, R87). -/
def fieldMouseY (w : FrameWord) : Int := sext16 (w.extractLsb' 64 16)

/-- `mouse_z = sext_16(W[95:80])` (R61, R88). -/
def fieldMouseZ (w : FrameWord) : Int := sext16 (w.extractLsb' 80 16)

/-- `mouse_press_l = W[103:96]` (R61, R89). -/
def fieldMousePressL (w : FrameWord) : BitVec 8 := w.extractLsb' 96 8

/-- `mouse_press_r = W[111:104]` (R61, R90). -/
def fieldMousePressR (w : FrameWord) : BitVec 8 := w.extractLsb' 104 8

/-- `key_mask = W[127:112]` (R61, R91). -/
def fieldKeyMask (w : FrameWord) : BitVec 16 := w.extractLsb' 112 16

/-- `reserved = W[143:128]` (R61, R92). -/
def fieldReserved (w : FrameWord) : BitVec 16 := w.extractLsb' 128 16

/-- The whole decode (R93). -/
def unpackFrame (w : FrameWord) : DecodedFrame where
  chRX := fieldChRX w
  chRY := fieldChRY w
  chLX := fieldChLX w
  chLY := fieldChLY w
  swR := fieldSwR w
  swL := fieldSwL w
  mouseX := fieldMouseX w
  mouseY := fieldMouseY w
  mouseZ := fieldMouseZ w
  mousePressL := fieldMousePressL w
  mousePressR := fieldMousePressR w
  keyMask := fieldKeyMask w
  reserved := fieldReserved w

/-- The number `W` of rule R65: every field at its bit offset. -/
def packNat (d : DecodedFrame) : Nat :=
  d.chRX.toNat + d.chRY.toNat * 2 ^ 11 + d.chLX.toNat * 2 ^ 22 + d.chLY.toNat * 2 ^ 33 + d.swR.toNat * 2 ^ 44
    + d.swL.toNat * 2 ^ 46 + u16 d.mouseX * 2 ^ 48 + u16 d.mouseY * 2 ^ 64 + u16 d.mouseZ * 2 ^ 80
    + d.mousePressL.toNat * 2 ^ 96 + d.mousePressR.toNat * 2 ^ 104 + d.keyMask.toNat * 2 ^ 112
    + d.reserved.toNat * 2 ^ 128

/-- `PACK(d)`: the eighteen bytes of rule R65. -/
def packFrame (d : DecodedFrame) : List Byte := bytesOf 18 (packNat d)

/-- `KEYHELD(i, key_mask)` (R94): the mask's bit for a physical key, 0 for the four edge events (DESIGN CHOICE of the spec,
D9, unsafe, log 7), no result from 20 on. -/
def keyHeldBit (i : Nat) (mask : BitVec 16) : Option Bool :=
  if i < Config.nKeys then some (mask.getLsbD i)
  else if i < Config.nKeyIdx then some false
  else none

/-- The index of a key: its position in the list of rule R68 (D9, log 16). -/
def keyIndex (k : Key) : Nat :=
  match k with
  | .w => 0
  | .s => 1
  | .a => 2
  | .d => 3
  | .shift => 4
  | .ctrl => 5
  | .q => 6
  | .e => 7
  | .r => 8
  | .f => 9
  | .g => 10
  | .z => 11
  | .x => 12
  | .c => 13
  | .v => 14
  | .b => 15
  | .mouseLeftPress => 16
  | .mouseRightPress => 17
  | .mouseLeftRelease => 18
  | .mouseRightRelease => 19

/-- The name of a 2-bit switch code (R67, D8, log 16). -/
def switchName (code : BitVec 2) : SwitchPosition :=
  match code.toNat with
  | 0 => .invalid
  | 1 => .top
  | 2 => .bottom
  | _ => .middle

end Sys2Proof.Machine
end

