-- ==== Sys2Proof/Machine/Flags.lean ====
section
/-! DEFINITION. The condition values of rule R27, all of them functions of the frame word: the six checks (R100 to R105),
their combination (R106) and the cause vector (R141). -/

namespace Sys2Proof.Machine

/-- A channel value outside `[364, 1684]` (R100 to R103, R109). -/
def channelBad (v : BitVec 11) : Bool := decide (v.toNat < Config.chMin) || decide (Config.chMax < v.toNat)

/-- The switch code that is reserved as invalid (R104, R105). -/
def switchBad (v : BitVec 2) : Bool := decide (v.toNat = Config.swInvalid)

/-- `bad_rx` (R100). -/
def badRx (w : FrameWord) : Bool := channelBad (fieldChRX w)

/-- `bad_ry` (R101). -/
def badRy (w : FrameWord) : Bool := channelBad (fieldChRY w)

/-- `bad_lx` (R102). -/
def badLx (w : FrameWord) : Bool := channelBad (fieldChLX w)

/-- `bad_ly` (R103). -/
def badLy (w : FrameWord) : Bool := channelBad (fieldChLY w)

/-- `bad_swr` (R104). -/
def badSwr (w : FrameWord) : Bool := switchBad (fieldSwR w)

/-- `bad_swl` (R105). -/
def badSwl (w : FrameWord) : Bool := switchBad (fieldSwL w)

/-- `CORRUPT(W)`, 1 meaning reject (R106). -/
def corruptFrame (w : FrameWord) : Bool :=
  badRx w || badRy w || badLx w || badLy w || badSwr w || badSwl w

/-- The cause vector `bad[5:0]` = (swl, swr, ly, lx, ry, rx) (R121, R141). -/
def causeVector (w : FrameWord) : BitVec 6 :=
  BitVec.ofNat 6 ((badRx w).toNat + 2 * (badRy w).toNat + 4 * (badLx w).toNat + 8 * (badLy w).toNat
    + 16 * (badSwr w).toNat + 32 * (badSwl w).toNat)

end Sys2Proof.Machine
end

