-- ==== Sys2Proof/Machine/Ops.lean ====
section
/-! DEFINITION. The named operations over the state: reading and writing the frame buffer (rules R7, R21, R45), the field
updates, the output events (R7, R70), raising `FrameCorrupt` and returning from it (R143, R144). -/

namespace Sys2Proof.Machine

/-- `buf[a]`; none if the cell holds no value (R33). -/
def bufRead : Memory → Nat → Option Byte
  | [], _ => none
  | (k, b) :: rest, a => if k = a then some b else bufRead rest a

/-- `buf[a] <- v` (R7, R46), in canonical form. -/
def bufWrite : Memory → Nat → Byte → Memory
  | [], a, v => [(a, v)]
  | (k, b) :: rest, a, v =>
    if a < k then (a, v) :: (k, b) :: rest
    else if a = k then (a, v) :: rest
    else (k, b) :: bufWrite rest a v

/-- The `n` bytes from index `a`; none if one of them holds no value. -/
def bufBytes (m : Memory) : Nat → Nat → Option (List Byte)
  | _, 0 => some []
  | a, n + 1 =>
    match bufRead m a, bufBytes m (a + 1) n with
    | some b, some rest => some (b :: rest)
    | _, _ => none

/-- `MemRead(a, n)` (R7): the little-endian value, defined only inside the eighteen cells. -/
def memRead (m : Memory) (a n : Nat) : Option Nat :=
  if a + n ≤ Config.frameBytes then (bufBytes m a n).map leNat else none

/-- `Frame(buf) = MemRead(0, 18)` (R7); none while a cell holds no value. -/
def bufFrame (m : Memory) : Option FrameWord :=
  (memRead m 0 Config.frameBytes).map (BitVec.ofNat 144)

/-- The buffer that holds the given bytes from index `a` on. -/
def bufFrom : Nat → List Byte → Memory
  | _, [] => []
  | a, b :: rest => (a, b) :: bufFrom (a + 1) rest

/-- `fsm <- f`. -/
def setFsm (f : Fsm) (s : State) : State := { s with fsm := f }

/-- `cnt <- n`. -/
def setCnt (n : Nat) (s : State) : State := { s with cnt := n }

/-- Replace the frame buffer's contents. -/
def setBuf (m : Memory) (s : State) : State := { s with buf := m }

/-- `view <- d`, all thirteen fields in one step (R24). -/
def setView (d : DecodedFrame) (s : State) : State := { s with view := some d }

/-- Drive wires of the current step (log 2). -/
def drive (f : Wires → Wires) (s : State) : State := { s with wires := f s.wires }

/-- `emit PUB(d)` (R7): the trace gains the event; `pub_valid` is 1 and the buses carry `d` (R70). -/
def emitPub (d : DecodedFrame) (s : State) : State :=
  { s with trace := s.trace ++ [.pub d], wires := { s.wires with pub := some d } }

/-- `emit RESYNC` (R7): the trace gains the event; `resync_req` is 1 (R70). -/
def emitResync (s : State) : State :=
  { s with trace := s.trace ++ [.resync], wires := { s.wires with resyncReq := true } }

/-- The output wire `rx_ready` (R69). -/
def rxReady (s : State) : Bool := decide (s.fsm = .reading ∧ s.cnt < Config.frameBytes)

/-- The output wire `pub_valid` (R70). -/
def pubValid (s : State) : Bool := s.wires.pub.isSome

/-- The pattern that a `pub_mouse_*` bus carries for a field of the published value: two's complement (R70, D7). -/
def pubMouseBus (v : Int) : BitVec 16 := BitVec.ofNat 16 (u16 v)

/-- "On buffer ready": the condition under which `EVAL` is enabled (R121). -/
def evalEnabled (s : State) : Bool := decide (s.fsm = .reading ∧ s.cnt = Config.frameBytes)

/-- `W = Frame(buf)` for the rest of an `EVAL` (R121): the snapshot, or the fault of a cell that holds no value
(log 3). -/
def withFrame (s : State) (k : FrameWord → Result) : Result :=
  match bufFrame s.buf with
  | some w => k w
  | none => .fault .emptyCell

/-- TAKING THE EXCEPTION: `raise FrameCorrupt(bad)` (R143). `RESYNC` is emitted, control goes to `(RECOVERING, 0)`;
nothing is saved, `view` and `buf` keep their contents, and the cause vector is dropped (R141). -/
def raiseFrameCorrupt (_bad : BitVec 6) (s : State) : State :=
  setFsm .recovering (setCnt 0 (emitResync s))

/-- THE RETURN from the exception (R144): nothing was saved, so nothing is restored; `cnt` is not written. -/
def returnFromRecovery (s : State) : State := setFsm .reading s

/-- Accepting a frame (R122): write the view, publish its value, begin the next frame. -/
def acceptFrame (w : FrameWord) (s : State) : State :=
  setCnt 0 (emitPub (unpackFrame w) (setView (unpackFrame w) s))

/-- The reset of rule R170: the reset state of R33. What the outside world will present is not the block's (log 18). -/
def resetBlock (s : State) : State := { State.reset with input := s.input }

end Sys2Proof.Machine
end

