-- ==== Sys2Proof/Machine/Recovery.lean ====
section
/-! DEFINITION. The corruption error: its entry `EVAL.REJECT` (rule R143) and its return `RESUME` (R144). -/

namespace Sys2Proof.Machine

/-- `EVAL.REJECT` (R143): selected by a complete frame with `CORRUPT(W) = 1`; it takes the exception. -/
def execEvalReject (s : State) : Result :=
  if evalEnabled s then
    withFrame s (fun w => if corruptFrame w then .next (raiseFrameCorrupt (causeVector w) s) else .next s)
  else .next s

/-- `RESUME` (R144): enabled in `RECOVERING`, ignored in `READING` (D11). -/
def execResume (s : State) : Result :=
  if s.fsm = .recovering then .next (returnFromRecovery s) else .next s

end Sys2Proof.Machine
end

