-- ==== Sys2Proof/Machine/Reset.lean ====
section
/-! DEFINITION. The reset operation `RST` (rule R170). -/

namespace Sys2Proof.Machine

/-- `RST` (R170): always enabled; the reset state, nothing emitted. -/
def execRst (s : State) : Result := .next (resetBlock s)

end Sys2Proof.Machine
end

