-- ==== Sys2Proof/Machine/Sequencer.lean ====
section
/-! DEFINITION. The sequencer family: `RXB`, `EVAL.ACCEPT`, `MON`, `IDLE` (rules R120, R122, R123, R124). An operation
that is not enabled leaves the state as it is (R124, R126, R142; log 5). -/

namespace Sys2Proof.Machine

/-- `RXB` (R120): the byte goes to `buf[cnt]`, then `cnt` is incremented. -/
def execRxb (b : Byte) (s : State) : Result :=
  if rxReady s then .next (setCnt (s.cnt + 1) (setBuf (bufWrite s.buf s.cnt b) s)) else .next s

/-- `EVAL.ACCEPT` (R122): selected by a complete frame with `CORRUPT(W) = 0`. -/
def execEvalAccept (s : State) : Result :=
  if evalEnabled s then withFrame s (fun w => if corruptFrame w then .next s else .next (acceptFrame w s))
  else .next s

/-- `MON` (R123): the no-op monitoring hook. -/
def execMon (s : State) : Result := .next s

/-- `IDLE` (R124): nothing effective is presented. -/
def execIdle (s : State) : Result := .next s

end Sys2Proof.Machine
end

