-- ==== Sys2Proof/Machine/Unpack.lean ====
section
/-! DEFINITION. The unpack family: the thirteen field extractions, `UNPACK` and `KEYHELD` (rules R80 to R94). Each is a
function of its operands alone and writes no state of the block (R95): its result stands on its wire (log 2). -/

namespace Sys2Proof.Machine

/-- `UNPK.CHRX` (R80). -/
def execUnpkChrx (w : FrameWord) (s : State) : Result :=
  .next (drive (fun x => { x with chRX := some (fieldChRX w) }) s)

/-- `UNPK.CHRY` (R81). -/
def execUnpkChry (w : FrameWord) (s : State) : Result :=
  .next (drive (fun x => { x with chRY := some (fieldChRY w) }) s)

/-- `UNPK.CHLX` (R82). -/
def execUnpkChlx (w : FrameWord) (s : State) : Result :=
  .next (drive (fun x => { x with chLX := some (fieldChLX w) }) s)

/-- `UNPK.CHLY` (R83). -/
def execUnpkChly (w : FrameWord) (s : State) : Result :=
  .next (drive (fun x => { x with chLY := some (fieldChLY w) }) s)

/-- `UNPK.SWR` (R84). -/
def execUnpkSwr (w : FrameWord) (s : State) : Result :=
  .next (drive (fun x => { x with swR := some (fieldSwR w) }) s)

/-- `UNPK.SWL` (R85). -/
def execUnpkSwl (w : FrameWord) (s : State) : Result :=
  .next (drive (fun x => { x with swL := some (fieldSwL w) }) s)

/-- `UNPK.MX` (R86). -/
def execUnpkMx (w : FrameWord) (s : State) : Result :=
  .next (drive (fun x => { x with mouseX := some (fieldMouseX w) }) s)

/-- `UNPK.MY` (R87). -/
def execUnpkMy (w : FrameWord) (s : State) : Result :=
  .next (drive (fun x => { x with mouseY := some (fieldMouseY w) }) s)

/-- `UNPK.MZ` (R88). -/
def execUnpkMz (w : FrameWord) (s : State) : Result :=
  .next (drive (fun x => { x with mouseZ := some (fieldMouseZ w) }) s)

/-- `UNPK.MPL` (R89). -/
def execUnpkMpl (w : FrameWord) (s : State) : Result :=
  .next (drive (fun x => { x with mousePressL := some (fieldMousePressL w) }) s)

/-- `UNPK.MPR` (R90). -/
def execUnpkMpr (w : FrameWord) (s : State) : Result :=
  .next (drive (fun x => { x with mousePressR := some (fieldMousePressR w) }) s)

/-- `UNPK.KEY` (R91). -/
def execUnpkKey (w : FrameWord) (s : State) : Result :=
  .next (drive (fun x => { x with keyMask := some (fieldKeyMask w) }) s)

/-- `UNPK.RES` (R92). -/
def execUnpkRes (w : FrameWord) (s : State) : Result :=
  .next (drive (fun x => { x with reserved := some (fieldReserved w) }) s)

/-- `UNPACK` (R93): validity is not looked at. -/
def execUnpack (w : FrameWord) (s : State) : Result :=
  .next (drive (fun x => { x with decoded := some (unpackFrame w) }) s)

/-- `KEYHELD` (R94): a query on a mask the consumer holds; refused from index 20 on. -/
def execKeyheld (i : Nat) (mask : BitVec 16) (s : State) : Result :=
  match keyHeldBit i mask with
  | some b => .next (drive (fun x => { x with keyHeld := some b }) s)
  | none => .refused .keyIndexUndefined

end Sys2Proof.Machine
end

