-- ==== Sys2Proof/Machine/Validate.lean ====
section
/-! DEFINITION. The validate family: the six checks and `CORRUPT` (rules R100 to R106). Combinational: each result is a
wire, nothing is stored (R27). -/

namespace Sys2Proof.Machine

/-- `CHK.RX` (R100). -/
def execChkRx (w : FrameWord) (s : State) : Result :=
  .next (drive (fun x => { x with badRx := some (badRx w) }) s)

/-- `CHK.RY` (R101). -/
def execChkRy (w : FrameWord) (s : State) : Result :=
  .next (drive (fun x => { x with badRy := some (badRy w) }) s)

/-- `CHK.LX` (R102). -/
def execChkLx (w : FrameWord) (s : State) : Result :=
  .next (drive (fun x => { x with badLx := some (badLx w) }) s)

/-- `CHK.LY` (R103). -/
def execChkLy (w : FrameWord) (s : State) : Result :=
  .next (drive (fun x => { x with badLy := some (badLy w) }) s)

/-- `CHK.SWR` (R104). -/
def execChkSwr (w : FrameWord) (s : State) : Result :=
  .next (drive (fun x => { x with badSwr := some (badSwr w) }) s)

/-- `CHK.SWL` (R105). -/
def execChkSwl (w : FrameWord) (s : State) : Result :=
  .next (drive (fun x => { x with badSwl := some (badSwl w) }) s)

/-- `CORRUPT` (R106). -/
def execCorrupt (w : FrameWord) (s : State) : Result :=
  .next (drive (fun x => { x with corrupt := some (corruptFrame w) }) s)

end Sys2Proof.Machine
end

