-- ==== Sys2Proof/Machine/Dispatch.lean ====
section
/-! DEFINITION. The dispatch: one arm per operation of rule R72, each one direct call of its meaning. -/

namespace Sys2Proof.Machine

def exec (i : Instr) (s : State) : Host.Outcome State Fault Refusal :=
  match i with
  -- 40_unpack.md
  | .unpkChrx w => Sys2Proof.Machine.execUnpkChrx w s
  | .unpkChry w => Sys2Proof.Machine.execUnpkChry w s
  | .unpkChlx w => Sys2Proof.Machine.execUnpkChlx w s
  | .unpkChly w => Sys2Proof.Machine.execUnpkChly w s
  | .unpkSwr w => Sys2Proof.Machine.execUnpkSwr w s
  | .unpkSwl w => Sys2Proof.Machine.execUnpkSwl w s
  | .unpkMx w => Sys2Proof.Machine.execUnpkMx w s
  | .unpkMy w => Sys2Proof.Machine.execUnpkMy w s
  | .unpkMz w => Sys2Proof.Machine.execUnpkMz w s
  | .unpkMpl w => Sys2Proof.Machine.execUnpkMpl w s
  | .unpkMpr w => Sys2Proof.Machine.execUnpkMpr w s
  | .unpkKey w => Sys2Proof.Machine.execUnpkKey w s
  | .unpkRes w => Sys2Proof.Machine.execUnpkRes w s
  | .unpack w => Sys2Proof.Machine.execUnpack w s
  | .keyheld k mask => Sys2Proof.Machine.execKeyheld k mask s
  -- 41_validate.md
  | .chkRx w => Sys2Proof.Machine.execChkRx w s
  | .chkRy w => Sys2Proof.Machine.execChkRy w s
  | .chkLx w => Sys2Proof.Machine.execChkLx w s
  | .chkLy w => Sys2Proof.Machine.execChkLy w s
  | .chkSwr w => Sys2Proof.Machine.execChkSwr w s
  | .chkSwl w => Sys2Proof.Machine.execChkSwl w s
  | .corrupt w => Sys2Proof.Machine.execCorrupt w s
  -- 42_sequencer.md, 60_exceptions.md, 70_reset_and_hazards.md
  | .rxb b => Sys2Proof.Machine.execRxb b s
  | .evalAccept => Sys2Proof.Machine.execEvalAccept s
  | .evalReject => Sys2Proof.Machine.execEvalReject s
  | .resume => Sys2Proof.Machine.execResume s
  | .mon => Sys2Proof.Machine.execMon s
  | .idle => Sys2Proof.Machine.execIdle s
  | .rst => Sys2Proof.Machine.execRst s

end Sys2Proof.Machine
end

