-- ==== Sys2Proof/Machine/Cycle.lean ====
section
/-! DEFINITION. One cycle of the block: the item presented, the operations it selects (rule R69), the operations of an
`EVAL` (R121), and running them in order through `exec`. -/

namespace Sys2Proof.Machine

/-- Run operations one after another, stopping at the first fault or refusal. -/
def runOps : List Instr → State → Result
  | [], s => .next s
  | i :: rest, s =>
    match exec i s with
    | .next t => runOps rest t
    | .fault r => .fault r
    | .refused r => .refused r

/-- The checks of an `EVAL`, in rule R121's order, and their combination (R106). -/
def gateOps (w : FrameWord) : List Instr :=
  [.chkSwl w, .chkSwr w, .chkLy w, .chkLx w, .chkRy w, .chkRx w, .corrupt w]

/-- The decode of an accepted frame, field by field and whole (R93). -/
def unpackOps (w : FrameWord) : List Instr :=
  [.unpkChrx w, .unpkChry w, .unpkChlx w, .unpkChly w, .unpkSwr w, .unpkSwl w, .unpkMx w, .unpkMy w, .unpkMz w,
   .unpkMpl w, .unpkMpr w, .unpkKey w, .unpkRes w, .unpack w]

/-- The operations of an `EVAL` of the frame `w` (R121): the gate, then the decode and `EVAL.ACCEPT`, or `EVAL.REJECT`,
where the frame "is not decoded" (R143). DEDUCED order, safe (log 10). -/
def evalOps (w : FrameWord) : List Instr :=
  gateOps w ++ if corruptFrame w then [.evalReject] else unpackOps w ++ [.evalAccept]

/-- One cycle with event word `e` (R69). -/
def runCycle (e : EvtWord) (s : State) : Result :=
  match selectEvt s.fsm s.cnt e with
  | .op i => runOps (monOps e ++ [i]) s
  | .eval => withFrame s (fun w => runOps (monOps e ++ evalOps w) s)

/-- The item presented now; when the list has ended nothing is presented, the word 0x000 (log 1). -/
def nextInput (s : State) : Input :=
  match s.input with
  | [] => .evt 0
  | x :: _ => x

/-- The beginning of a step: the item is taken off the list, and no wire is driven yet (R70). -/
def beginStep (s : State) : State := { s with input := s.input.tail, wires := Wires.quiet }

/-- A step on the item `x`: a cycle of the block, or a consumer's query, which is no step of the block (log 6). -/
def runInput (x : Input) (s : State) : Result :=
  match x with
  | .evt e => runCycle e s
  | .query i mask => exec (.keyheld i mask) s

/-- The state in which the next step takes the packet: an event word or a query is put first in the list, the loop state
being made, where it is not one, a state in which the word selects its own operation; a frame is put in the buffer, complete, and a cycle
without reset follows (log 11). -/
def placePacket (p : Packet) (s : State) : State :=
  match p with
  | .input (.evt e) =>
    if selectEvt s.fsm s.cnt e = selectEvt (evtHome e) 0 e then { s with input := .evt e :: s.input }
    else { s with fsm := evtHome e, cnt := 0, input := .evt e :: s.input }
  | .input (.query i mask) => { s with input := .query i mask :: s.input }
  | .frame w =>
    { s with
      fsm := .reading
      cnt := Config.frameBytes
      buf := bufFrom 0 (bytesOf 18 w.toNat)
      input := .evt 0 :: s.input }

end Sys2Proof.Machine
end

