-- ==== Sys2Proof/Machine/Step.lean ====
section
/-! DEFINITION. The step (rule R8): one item of the outside world, taken by the block. -/

namespace Sys2Proof.Machine

/-- One step: the item presented now is taken and run. -/
def step (s : State) : Host.Outcome State Fault Refusal := runInput (nextInput s) (beginStep s)

/-- The state whose next step runs the instruction a table word stands for (log 11); a word that the decoder refuses
places nothing. -/
def State.withFetchWord (s : State) (nbits w : Nat) : State :=
  if w < 2 ^ nbits ∧ nbits ≤ Config.frameBits then
    match decodePacket (tableBytes nbits w) with
    | .ok p => placePacket p s
    | .error _ => s
  else s

end Sys2Proof.Machine
end

