-- ==== Sys2Proof/Machine/Script.lean ====
section
/-! DEFINITION. Event scripts (rule R71): the words of single events and the expansions of the pseudo-operations `SEND`,
`SENDR` and `FLOOD`, as lists to be placed in `State.input`. -/

namespace Sys2Proof.Machine

/-- The word of `RST` (R71, T32). -/
def wordRst : Input := .evt 0x800

/-- The word of `MON` (R71, T32). -/
def wordMon : Input := .evt 0x400

/-- The word of `RESUME` (R71, T32). -/
def wordResume : Input := .evt 0x200

/-- The word of a cycle in which nothing is presented, written where the block needs a cycle for `EVAL` (R71). -/
def wordNone : Input := .evt 0x000

/-- The word of `RXB b`: `rx_valid` and the byte (R69). -/
def wordRxb (b : Byte) : Input := .evt (BitVec.ofNat 12 (0x100 + b.toNat))

/-- `SEND`: the bytes in order, then the internal `EVAL` (R71 (d)). -/
def scriptSend (bs : List Byte) : List Input := bs.map wordRxb ++ [wordNone]

/-- `SENDR`: `SEND`, then `RESUME` (R71 (d)). -/
def scriptSendr (bs : List Byte) : List Input := scriptSend bs ++ [wordResume]

/-- `FLOOD` from a counter value: `k` times the byte, an `EVAL` cycle after every eighteenth (R71 (d)). -/
def scriptFloodFrom : Nat → Nat → Byte → List Input
  | _, 0, _ => []
  | n, k + 1, b =>
    if n + 1 = Config.frameBytes then wordRxb b :: wordNone :: scriptFloodFrom 0 k b
    else wordRxb b :: scriptFloodFrom (n + 1) k b

/-- `FLOOD <k> <byte>`, counted from `cnt = 0` (R71 (d)). -/
def scriptFlood (k : Nat) (b : Byte) : List Input := scriptFloodFrom 0 k b

end Sys2Proof.Machine
end

