-- ==== Sys2Proof/Safety.lean ====
section
/-! DEFINITION. What claims about runs are stated with: the gate's condition on a decoded frame (rules R106, R128), the
invariant of reachable states (R127), states that differ only in what nothing may observe (R26, R27, U13), and the
counts of rule R127 (e), (f). -/

namespace Sys2Proof.Machine

/-- A channel value the gate accepts (R109). -/
abbrev ChannelOk (v : BitVec 11) : Prop := 364 ≤ v.toNat ∧ v.toNat ≤ 1684

/-- A decoded frame as the gate lets it through (R106, R128), in the ranges of rule R24. -/
structure GateOk (d : DecodedFrame) : Prop where
  chRX  : ChannelOk d.chRX
  chRY  : ChannelOk d.chRY
  chLX  : ChannelOk d.chLX
  chLY  : ChannelOk d.chLY
  swR   : d.swR ≠ 0
  swL   : d.swL ≠ 0
  range : d.InRange

/-- The invariant of every reachable state: R127 (a), (b), (c) as far as a state shows them, the canonical form of the
frame buffer (R31), the view's ranges (R24) and the gate over the trace (R128). -/
structure Inv (s : State) : Prop where
  cnt_le     : s.cnt ≤ 18
  recovering : s.fsm = .recovering → s.cnt = 0
  buf_wf     : s.buf.wf
  written    : ∀ a, a < s.cnt → ∃ b, bufRead s.buf a = some b
  view_ok    : ∀ d, s.view = some d → GateOk d
  trace_ok   : ∀ d, .pub d ∈ s.trace → GateOk d

/-- `n` steps of the block, stopping at the first fault or refusal. -/
def runSteps (n : Nat) (s : State) : Result := Host.Core.run Sys2Proof.core n s

/-- A safe run never stops: `n` steps answer a next state (R129 (d), R142). -/
def RunsOn (n : Nat) (s : State) : Prop := ∃ t, runSteps n s = .next t

/-- An item the block or the model takes without refusing it: any event word, a query of a defined key (R94). -/
def Input.Defined : Input → Prop
  | .evt _ => True
  | .query i _ => i < 20

/-- Equal but for the wires, which are no state of the block (R27). -/
structure SameBlock (s t : State) : Prop where
  fsm   : s.fsm = t.fsm
  cnt   : s.cnt = t.cnt
  buf   : s.buf = t.buf
  view  : s.view = t.view
  trace : s.trace = t.trace
  input : s.input = t.input

/-- Equal in everything but the old contents of `view` and of the cells not yet rewritten, which no operation reads
(R26, R47, U13), and the wires. -/
structure SameButOldContents (s t : State) : Prop where
  fsm   : s.fsm = t.fsm
  cnt   : s.cnt = t.cnt
  trace : s.trace = t.trace
  input : s.input = t.input
  cells : ∀ a, a < s.cnt → bufRead s.buf a = bufRead t.buf a

/-- Two results of the same kind, next states related by `r`. -/
def ResultRel (r : State → State → Prop) (x y : Result) : Prop :=
  match x, y with
  | .next s, .next t => r s t
  | .fault a, .fault b => a = b
  | .refused a, .refused b => a = b
  | _, _ => False

/-- The counts of rule R127 (e), (f): steps since the last `RST`. -/
structure Tally where
  rxbs    : Nat := 0
  evals   : Nat := 0
  resumes : Nat := 0
  deriving DecidableEq, Repr

/-- The counts after the step that state `s` takes. -/
def tallyStep (s : State) (k : Tally) : Tally :=
  match nextInput s with
  | .query _ _ => k
  | .evt e =>
    match selectEvt s.fsm s.cnt e with
    | .eval => { k with evals := k.evals + 1 }
    | .op (.rxb _) => { k with rxbs := k.rxbs + 1 }
    | .op .resume => { k with resumes := k.resumes + 1 }
    | .op .rst => {}
    | .op _ => k

/-- The counts after `n` steps from `s`, beginning at `k`; a run that stops counts no further. -/
def tallyRun : Nat → State → Tally → Tally
  | 0, _, k => k
  | n + 1, s, k =>
    match step s with
    | .next t => tallyRun n t (tallyStep s k)
    | _ => k

/-- `base`, with the wire that a FRAME144 operation drives taken from `v`; any other operation has no wire here. -/
def Wires.withOwn (i : Instr) (v base : Wires) : Wires :=
  match i with
  | .unpkChrx _ => { base with chRX := v.chRX }
  | .unpkChry _ => { base with chRY := v.chRY }
  | .unpkChlx _ => { base with chLX := v.chLX }
  | .unpkChly _ => { base with chLY := v.chLY }
  | .unpkSwr _ => { base with swR := v.swR }
  | .unpkSwl _ => { base with swL := v.swL }
  | .unpkMx _ => { base with mouseX := v.mouseX }
  | .unpkMy _ => { base with mouseY := v.mouseY }
  | .unpkMz _ => { base with mouseZ := v.mouseZ }
  | .unpkMpl _ => { base with mousePressL := v.mousePressL }
  | .unpkMpr _ => { base with mousePressR := v.mousePressR }
  | .unpkKey _ => { base with keyMask := v.keyMask }
  | .unpkRes _ => { base with reserved := v.reserved }
  | .unpack _ => { base with decoded := v.decoded }
  | .chkRx _ => { base with badRx := v.badRx }
  | .chkRy _ => { base with badRy := v.badRy }
  | .chkLx _ => { base with badLx := v.badLx }
  | .chkLy _ => { base with badLy := v.badLy }
  | .chkSwr _ => { base with badSwr := v.badSwr }
  | .chkSwl _ => { base with badSwl := v.badSwl }
  | .corrupt _ => { base with corrupt := v.corrupt }
  | .keyheld _ _ | .rxb _ | .evalAccept | .evalReject | .resume | .mon | .idle | .rst => base

/-- The `PUB` events of a trace. -/
def pubCount (tr : List OutEvent) : Nat := tr.countP (fun e => match e with | .pub _ => true | .resync => false)

/-- The `RESYNC` events of a trace. -/
def resyncCount (tr : List OutEvent) : Nat := tr.count .resync

/-- The counts of rule R127 (e), (f) agree with a state. -/
structure CountsMatch (s : State) (k : Tally) : Prop where
  events  : pubCount s.trace + resyncCount s.trace = k.evals
  bytes   : k.rxbs = 18 * k.evals + s.cnt
  resumes : resyncCount s.trace = k.resumes + (if s.fsm = .recovering then 1 else 0)

end Sys2Proof.Machine
end

