-- ==== Sys2Proof/Certificates/Slice0/Obligations.lean ====
section
/-! DEFINITION. The statements about the DR16 block, grouped as the spec's files are. Where an operation's result stands on
a wire of `State.wires`, the value is the spec's and the place is the model's (log 2). -/

open Sys2Proof Sys2Proof.Machine

/-! ## Reset and the invariant -/

/-- R33's table of reset values, by the model's own accessors. `cnt`, the absence of values and the quiet output wires are
the spec's decision D12; the two model fields are logs 1 and 2. -/
def Obligations.ResetHasTheSpecifiedValues : Prop :=
  State.reset.fsm = .reading ∧ State.reset.cnt = 0 ∧ (∀ a, bufRead State.reset.buf a = none) ∧
    State.reset.view = none ∧ State.reset.trace = [] ∧ rxReady State.reset = true ∧ pubValid State.reset = false ∧
    State.reset.wires.resyncReq = false ∧ State.reset.input = []

/-- The invariant of reachable states (R127) holds right after reset. -/
def Obligations.ResetMeetsTheInvariant : Prop := Inv State.reset

/-- Every step keeps the invariant: the counter's bound, `RECOVERING` at 0, the canonical buffer with its first `cnt` cells
written, and the gate over `view` and every published frame (R24, R127, R128). -/
def Obligations.EveryStepKeepsTheInvariant : Prop :=
  ∀ s t : State, Inv s → step s = .next t → Inv t

/-- From a state that meets the invariant, a step on any event word, or on a query of a defined key, answers a next
state: nothing is fatal (R129 (d), R142). Only the query of an undefined key stops, by R94. -/
def Obligations.NoStepFromTheInvariantStops : Prop :=
  ∀ s : State, Inv s →
    (Input.Defined (nextInput s) → ∃ t, step s = .next t) ∧
    (¬ Input.Defined (nextInput s) → step s = .refused .keyIndexUndefined)

/-- A run of any length from a state that meets the invariant goes on, whatever is presented (R129 (d), R142). -/
def Obligations.RunsNeverStop : Prop :=
  ∀ (n : Nat) (s : State), Inv s → (∀ x ∈ s.input, Input.Defined x) → RunsOn n s

/-! ## The unpack family -/

/-- The four channel extractions by the byte formulas of R62, R80 to R83; nothing else changes. Wire place: log 2. -/
def Obligations.ChannelExtractionsFromBytes : Prop :=
  ∀ (B : Vector Byte 18) (s : State),
    exec (.unpkChrx (frameOf B.toList)) s = .next { s with wires := { s.wires with
      chRX := some (BitVec.ofNat 11 ((B[0].toNat ||| (B[1].toNat <<< 8)) &&& 0x7FF)) } } ∧
    exec (.unpkChry (frameOf B.toList)) s = .next { s with wires := { s.wires with
      chRY := some (BitVec.ofNat 11 (((B[1].toNat >>> 3) ||| (B[2].toNat <<< 5)) &&& 0x7FF)) } } ∧
    exec (.unpkChlx (frameOf B.toList)) s = .next { s with wires := { s.wires with
      chLX := some (BitVec.ofNat 11
        (((B[2].toNat >>> 6) ||| (B[3].toNat <<< 2) ||| (B[4].toNat <<< 10)) &&& 0x7FF)) } } ∧
    exec (.unpkChly (frameOf B.toList)) s = .next { s with wires := { s.wires with
      chLY := some (BitVec.ofNat 11 (((B[4].toNat >>> 1) ||| (B[5].toNat <<< 7)) &&& 0x7FF)) } }

/-- The two switch extractions by the byte formulas of R63, R84, R85; nothing else changes. Wire place: log 2. -/
def Obligations.SwitchExtractionsFromBytes : Prop :=
  ∀ (B : Vector Byte 18) (s : State),
    exec (.unpkSwr (frameOf B.toList)) s = .next { s with wires := { s.wires with
      swR := some (BitVec.ofNat 2 ((B[5].toNat >>> 4) &&& 0x3)) } } ∧
    exec (.unpkSwl (frameOf B.toList)) s = .next { s with wires := { s.wires with
      swL := some (BitVec.ofNat 2 ((B[5].toNat >>> 6) &&& 0x3)) } }

/-- The three mouse extractions by R86 to R88: a little-endian pair of bytes read as two's complement (the spec's
general-knowledge item G1, decision D7); nothing else changes. Wire place: log 2. -/
def Obligations.MouseExtractionsFromBytes : Prop :=
  ∀ (B : Vector Byte 18) (s : State),
    let signed (lo hi : Byte) : Int :=
      if lo.toNat + 256 * hi.toNat < 32768 then (lo.toNat : Int) + 256 * hi.toNat
      else (lo.toNat : Int) + 256 * hi.toNat - 65536
    exec (.unpkMx (frameOf B.toList)) s = .next { s with wires := { s.wires with mouseX := some (signed B[6] B[7]) } } ∧
    exec (.unpkMy (frameOf B.toList)) s = .next { s with wires := { s.wires with mouseY := some (signed B[8] B[9]) } } ∧
    exec (.unpkMz (frameOf B.toList)) s =
      .next { s with wires := { s.wires with mouseZ := some (signed B[10] B[11]) } }

/-- The button, key and reserved extractions by R89 to R92; nothing else changes. Wire place: log 2. -/
def Obligations.ButtonKeyReservedExtractionsFromBytes : Prop :=
  ∀ (B : Vector Byte 18) (s : State),
    exec (.unpkMpl (frameOf B.toList)) s = .next { s with wires := { s.wires with mousePressL := some B[12] } } ∧
    exec (.unpkMpr (frameOf B.toList)) s = .next { s with wires := { s.wires with mousePressR := some B[13] } } ∧
    exec (.unpkKey (frameOf B.toList)) s = .next { s with wires := { s.wires with
      keyMask := some (BitVec.ofNat 16 (B[14].toNat ||| (B[15].toNat <<< 8))) } } ∧
    exec (.unpkRes (frameOf B.toList)) s = .next { s with wires := { s.wires with
      reserved := some (BitVec.ofNat 16 (B[16].toNat ||| (B[17].toNat <<< 8))) } }

/-- `UNPACK` gives the record of the thirteen extractions, each from its slice of `W` (R93); nothing else changes. Wire
place: log 2; two's complement: D7. -/
def Obligations.UnpackGivesAllThirteenFields : Prop :=
  ∀ (w : FrameWord) (s : State),
    let d : DecodedFrame :=
      { chRX := w.extractLsb' 0 11, chRY := w.extractLsb' 11 11, chLX := w.extractLsb' 22 11
        chLY := w.extractLsb' 33 11, swR := w.extractLsb' 44 2, swL := w.extractLsb' 46 2
        mouseX := (w.extractLsb' 48 16).toInt, mouseY := (w.extractLsb' 64 16).toInt
        mouseZ := (w.extractLsb' 80 16).toInt, mousePressL := w.extractLsb' 96 8
        mousePressR := w.extractLsb' 104 8, keyMask := w.extractLsb' 112 16, reserved := w.extractLsb' 128 16 }
    exec (.unpack w) s = .next { s with wires := { s.wires with decoded := some d } }

/-- `UNPACK` and `PACK` are inverse on all 2^144 frames and on every decoded frame in range, and `UNPACK`'s results are in
range: no bit of a frame is dropped (R95 (c); `reserved` is carried by decision D5). -/
def Obligations.UnpackAndPackAreInverse : Prop :=
  (∀ bs : List Byte, bs.length = 18 → packFrame (unpackFrame (frameOf bs)) = bs) ∧
  (∀ d : DecodedFrame, d.InRange → unpackFrame (frameOf (packFrame d)) = d) ∧
  (∀ w : FrameWord, (unpackFrame w).InRange)

/-- R96: round-trip stability, and a key mask built with the one bit `i` reports key `i` held and every other index below
20 not held. The answer for the indices 16 to 19 rests on the spec's decision D9 (log 7, DESIGN CHOICE, unsafe). -/
def Obligations.RoundTripStabilityAndSingleKey : Prop :=
  (∀ w : FrameWord, unpackFrame (frameOf (packFrame (unpackFrame w))) = unpackFrame w) ∧
  (∀ (d : DecodedFrame) (i j : Nat), i < 16 → j < 20 →
    keyHeldBit j (fieldKeyMask (frameOf (packFrame { d with keyMask := BitVec.ofNat 16 (2 ^ i) }))) =
      some (decide (j = i)))

/-- `KEYHELD` (R94): the mask's bit for 0..15, "not held" for 16..19 (decision D9, log 7), refused from 20 on; nothing else
changes. Wire place: log 2. -/
def Obligations.KeyheldOverItsWholeDomain : Prop :=
  ∀ (i : Nat) (mask : BitVec 16) (s : State),
    (i ≤ 15 → exec (.keyheld i mask) s = .next { s with wires := { s.wires with
      keyHeld := some (decide ((mask.toNat >>> i) &&& 1 = 1)) } }) ∧
    (16 ≤ i → i ≤ 19 → exec (.keyheld i mask) s = .next { s with wires := { s.wires with keyHeld := some false } }) ∧
    (20 ≤ i → exec (.keyheld i mask) s = .refused .keyIndexUndefined)

/-- The index of a key is its position in the list of R68, and a physical key `i` is frame bit `112 + i`, the bit the key
query reads. The numbering by list order is the spec's decision D9 (log 16). -/
def Obligations.KeyIsFrameBit : Prop :=
  let physical : List Key := [.w, .s, .a, .d, .shift, .ctrl, .q, .e, .r, .f, .g, .z, .x, .c, .v, .b]
  let edges : List Key := [.mouseLeftPress, .mouseRightPress, .mouseLeftRelease, .mouseRightRelease]
  (∀ k : Key, (physical ++ edges)[keyIndex k]? = some k) ∧ (physical ++ edges).Nodup ∧
    (∀ k : Key, keyIndex k < 16 ↔ k ∈ physical) ∧
    (∀ (w : FrameWord) (k : Key), k ∈ physical →
      keyHeldBit (keyIndex k) (fieldKeyMask w) = some (w.getLsbD (112 + keyIndex k)))

/-- Purity (R95 (a)): every FRAME144 operation answers a next state that differs in the operation's own wire only, and
that wire is driven with a value which is the same for every state: nothing is stored or emitted, and the result depends
on the operand alone. Wire place: log 2. -/
def Obligations.FrameOperationsArePure : Prop :=
  ∀ i : Instr, i.format = .frame144 →
    ∃ v : Wires, Wires.withOwn i v Wires.quiet ≠ Wires.quiet ∧
      ∀ s : State, exec i s = .next { s with wires := Wires.withOwn i v s.wires }

/-! ## The validate family -/

/-- The six checks on the numbers they test (R100 to R105, R109), each a slice of `W`; nothing else changes. Wire place:
log 2. -/
def Obligations.ChecksTestTheirFields : Prop :=
  ∀ (w : FrameWord) (s : State),
    let v (lo width : Nat) : Nat := w.toNat / 2 ^ lo % 2 ^ width
    let out (x : Nat) : Bool := decide (x < 364 ∨ x > 1684)
    exec (.chkRx w) s = .next { s with wires := { s.wires with badRx := some (out (v 0 11)) } } ∧
    exec (.chkRy w) s = .next { s with wires := { s.wires with badRy := some (out (v 11 11)) } } ∧
    exec (.chkLx w) s = .next { s with wires := { s.wires with badLx := some (out (v 22 11)) } } ∧
    exec (.chkLy w) s = .next { s with wires := { s.wires with badLy := some (out (v 33 11)) } } ∧
    exec (.chkSwr w) s = .next { s with wires := { s.wires with badSwr := some (decide (v 44 2 = 0)) } } ∧
    exec (.chkSwl w) s = .next { s with wires := { s.wires with badSwl := some (decide (v 46 2 = 0)) } }

/-- `CORRUPT` is 0 exactly when the four channels lie in `[364, 1684]` and both switch codes are not 0 (R106); nothing
else changes. Wire place: log 2. -/
def Obligations.CorruptExactlyOutsideTheGate : Prop :=
  ∀ (w : FrameWord) (s : State),
    let v (lo width : Nat) : Nat := w.toNat / 2 ^ lo % 2 ^ width
    let good (x : Nat) : Prop := 364 ≤ x ∧ x ≤ 1684
    ∃ c : Bool, exec (.corrupt w) s = .next { s with wires := { s.wires with corrupt := some c } } ∧
      (c = false ↔ good (v 0 11) ∧ good (v 11 11) ∧ good (v 22 11) ∧ good (v 33 11) ∧ v 44 2 ≠ 0 ∧ v 46 2 ≠ 0)

/-- The gate reads `W[47:0]` only: frames with the same first six bytes are judged alike (R106's encoding and corner
cases, R110). -/
def Obligations.GateReadsTheFirstSixBytesOnly : Prop :=
  ∀ B C : Vector Byte 18, (∀ i : Fin 6, B[i.val]'(by omega) = C[i.val]'(by omega)) →
    corruptFrame (frameOf B.toList) = corruptFrame (frameOf C.toList)

/-- The six checks in any order, from any state, leave the same state (R107). -/
def Obligations.CheckOrderIsImmaterial : Prop :=
  ∀ (w : FrameWord) (l : List Instr) (s : State),
    l.Perm [.chkRx w, .chkRy w, .chkLx w, .chkLy w, .chkSwr w, .chkSwl w] →
      runOps l s = runOps [.chkRx w, .chkRy w, .chkLx w, .chkLy w, .chkSwr w, .chkSwl w] s

/-- The cause vector: bit by bit the six checks, non-zero exactly for a corrupt frame (R141, decision D14), and the
handling does not depend on which bits are set. -/
def Obligations.CauseVectorIsTheSixChecks : Prop :=
  ∀ w : FrameWord,
    ((causeVector w).getLsbD 0 = badRx w ∧ (causeVector w).getLsbD 1 = badRy w ∧
      (causeVector w).getLsbD 2 = badLx w ∧ (causeVector w).getLsbD 3 = badLy w ∧
      (causeVector w).getLsbD 4 = badSwr w ∧ (causeVector w).getLsbD 5 = badSwl w) ∧
    (corruptFrame w = true ↔ causeVector w ≠ 0) ∧
    (∀ (bad : BitVec 6) (s : State), raiseFrameCorrupt bad s = raiseFrameCorrupt (causeVector w) s)

/-- The accepted frames are `1321^4 * 3^2 * 2^96` of the `2^144` (R110, T23, derived there by counting). -/
def Obligations.AcceptedFramesCount : Prop :=
  Nat.card { w : FrameWord // corruptFrame w = false } = 1321 ^ 4 * 3 ^ 2 * 2 ^ 96

/-! ## The sequencer, the exception and its return, reset -/

/-- `RXB` (R120), enabled: the byte goes to `buf[cnt]` and to no other cell, `cnt` advances by one, all else stays. -/
def Obligations.RxbStoresAtCntAndAdvances : Prop :=
  ∀ (b : Byte) (s : State), s.fsm = .reading → s.cnt < 18 →
    ∃ t, exec (.rxb b) s = .next t ∧ t.cnt = s.cnt + 1 ∧ bufRead t.buf s.cnt = some b ∧
      (∀ a, a ≠ s.cnt → bufRead t.buf a = bufRead s.buf a) ∧ t.fsm = s.fsm ∧ t.view = s.view ∧ t.trace = s.trace ∧
      t.wires = s.wires ∧ t.input = s.input

/-- An operation presented when it is not enabled leaves the whole state as it is (R124, R126, R142; decision D11 and
log 5). -/
def Obligations.NotEnabledMeansIgnored : Prop :=
  ∀ s : State,
    (¬ (s.fsm = .reading ∧ s.cnt < 18) → ∀ b, exec (.rxb b) s = .next s) ∧
    (s.fsm ≠ .recovering → exec .resume s = .next s) ∧
    (¬ (s.fsm = .reading ∧ s.cnt = 18) → exec .evalAccept s = .next s ∧ exec .evalReject s = .next s) ∧
    (∀ w, s.fsm = .reading → s.cnt = 18 → bufFrame s.buf = some w →
      (corruptFrame w = true → exec .evalAccept s = .next s) ∧
      (corruptFrame w = false → exec .evalReject s = .next s))

/-- `EVAL.ACCEPT` (R122): `view` becomes the decode of this frame, `PUB` of that value is emitted, `cnt` returns to 0; `fsm`,
`buf` and what is presented (log 1) stay. -/
def Obligations.EvalAcceptPublishesTheDecode : Prop :=
  ∀ (w : FrameWord) (s : State), s.fsm = .reading → s.cnt = 18 → bufFrame s.buf = some w → corruptFrame w = false →
    ∃ t, exec .evalAccept s = .next t ∧ t.view = some (unpackFrame w) ∧
      t.trace = s.trace ++ [.pub (unpackFrame w)] ∧ t.cnt = 0 ∧ t.fsm = .reading ∧ t.buf = s.buf ∧
      t.input = s.input ∧ t.wires = { s.wires with pub := some (unpackFrame w) }

/-- `EVAL.REJECT` (R143), taking the exception: `RESYNC` is emitted, control goes to `(RECOVERING, 0)`; `view` and `buf` keep
their contents, nothing is published. -/
def Obligations.EvalRejectTakesFrameCorrupt : Prop :=
  ∀ (w : FrameWord) (s : State), s.fsm = .reading → s.cnt = 18 → bufFrame s.buf = some w → corruptFrame w = true →
    ∃ t, exec .evalReject s = .next t ∧ t.fsm = .recovering ∧ t.cnt = 0 ∧ t.trace = s.trace ++ [.resync] ∧
      t.view = s.view ∧ t.buf = s.buf

/-- `RESUME` (R144), returning from the exception: `fsm` becomes `READING`, all else stays. -/
def Obligations.ResumeReturnsToReading : Prop :=
  ∀ s : State, s.fsm = .recovering →
    ∃ t, exec .resume s = .next t ∧ t.fsm = .reading ∧ t.cnt = s.cnt ∧ t.buf = s.buf ∧ t.view = s.view ∧
      t.trace = s.trace ∧ t.wires = s.wires ∧ t.input = s.input

/-- `MON` (R123) changes nothing, and beside any other step it does not change that step: toggling the `mon` bit of the
word presented leaves the step's result the same. -/
def Obligations.MonNeverChangesAnything : Prop :=
  ∀ (e : EvtWord) (rest : List Input) (s : State),
    exec .mon s = .next s ∧
    step { s with input := .evt e :: rest } = step { s with input := .evt (e ^^^ 0x400) :: rest }

/-- `IDLE` (R124), always enabled, changes nothing; and in the block's two waits (R158) a cycle without a wake-up leaves the
block as it is. -/
def Obligations.WaitingKeepsEverything : Prop :=
  ∀ s : State, exec .idle s = .next s ∧
    ∀ e : EvtWord, nextInput s = .evt e → evtRst e = false →
      (s.fsm = .reading ∧ s.cnt < 18 ∧ evtRxValid e = false) ∨ (s.fsm = .recovering ∧ evtResume e = false) →
      ∃ t, step s = .next t ∧ SameBlock t { s with input := s.input.tail }

/-- `RST` (R170): from any state, at any time and whatever the other bits of the word, the reset state of R33 with nothing
emitted; what is presented afterwards is not the block's (log 18). -/
def Obligations.RstGivesTheResetState : Prop :=
  ∀ s : State, exec .rst s = .next { State.reset with input := s.input } ∧
    ∀ e : EvtWord, nextInput s = .evt e → 0x800 ≤ e.toNat → step s = .next { State.reset with input := s.input.tail }

/-- An `EVAL` outcome in a state where a cell of the buffer holds no value stops with the model's fault; no state that
meets the invariant is one (log 3, R127 (c)). -/
def Obligations.EmptyCellStopsEval : Prop :=
  ∀ (s : State) (a : Nat), s.fsm = .reading → s.cnt = 18 → a < 18 → bufRead s.buf a = none →
    exec .evalAccept s = .fault .emptyCell ∧ exec .evalReject s = .fault .emptyCell ∧ ¬ Inv s

/-! ## Selection, decoding, the step -/

/-- A step runs what is selected: with the item taken off the list and the wires quiet, the operation that rule R69 selects
for the event word, which is the one the decoder reads from the word's two bytes (with `MON` before it where `mon` is 1).
That a step also takes a consumer's query, and runs it as `KEYHELD`, is the model's choice (log 6; the block itself never
evaluates `KEYHELD`). -/
def Obligations.StepRunsTheSelectedOperation : Prop :=
  ∀ s : State,
    (∀ (e : EvtWord) (i : Instr), nextInput s = .evt e → selectEvt s.fsm s.cnt e = .op i →
      i.wellFormed = true ∧ decode s.fsm s.cnt (bytesOf 2 e.toNat) = .ok (monOps e ++ [i]) ∧
      step s = exec i { s with input := s.input.tail, wires := Wires.quiet }) ∧
    (∀ (i : Nat) (mask : BitVec 16), nextInput s = .query i mask →
      step s = exec (.keyheld i mask) { s with input := s.input.tail, wires := Wires.quiet })

/-- A step at a complete frame is `EVAL` (R121): whatever the word presented, `rst` being 0, it runs `EVAL.REJECT` or
`EVAL.ACCEPT`, as the frame's `CORRUPT` says, on the state whose wires carry the gate's results (and, for an accepted
frame, the decode; log 10). -/
def Obligations.StepAtACompleteFrameIsEval : Prop :=
  ∀ (e : EvtWord) (w : FrameWord) (s : State),
    nextInput s = .evt e → evtRst e = false → s.fsm = .reading → s.cnt = 18 → bufFrame s.buf = some w →
    let gate : Wires := { Wires.quiet with
      badSwl := some (badSwl w), badSwr := some (badSwr w), badLy := some (badLy w), badLx := some (badLx w)
      badRy := some (badRy w), badRx := some (badRx w), corrupt := some (corruptFrame w) }
    let d := unpackFrame w
    let all : Wires := { gate with
      chRX := some d.chRX, chRY := some d.chRY, chLX := some d.chLX, chLY := some d.chLY, swR := some d.swR
      swL := some d.swL, mouseX := some d.mouseX, mouseY := some d.mouseY, mouseZ := some d.mouseZ
      mousePressL := some d.mousePressL, mousePressR := some d.mousePressR, keyMask := some d.keyMask
      reserved := some d.reserved, decoded := some d }
    (corruptFrame w = true → step s = exec .evalReject { s with input := s.input.tail, wires := gate }) ∧
    (corruptFrame w = false → step s = exec .evalAccept { s with input := s.input.tail, wires := all })

/-- Rule R69's priorities over every word: `rst` first; at a complete frame `EVAL`; a byte in `READING`; `resume` in
`RECOVERING`; else nothing. -/
def Obligations.SelectionFollowsThePriorities : Prop :=
  ∀ (r m u v : Bool) (b : Byte) (cnt : Nat),
    let e : EvtWord :=
      BitVec.ofNat 12 (r.toNat * 2 ^ 11 + m.toNat * 2 ^ 10 + u.toNat * 2 ^ 9 + v.toNat * 2 ^ 8 + b.toNat)
    (r = true → ∀ f, selectEvt f cnt e = .op .rst) ∧
    (r = false → selectEvt .reading 18 e = .eval) ∧
    (r = false → v = true → cnt < 18 → selectEvt .reading cnt e = .op (.rxb b)) ∧
    (r = false → v = false → cnt < 18 → selectEvt .reading cnt e = .op .idle) ∧
    (r = false → u = true → selectEvt .recovering cnt e = .op .resume) ∧
    (r = false → u = false → selectEvt .recovering cnt e = .op .idle)

/-- A few words of T32 and the frame of T2, written out, read as the spec says. -/
def Obligations.SpecWordsDecodeAsListed : Prop :=
  decode .reading 0 [0x6B, 0x01] = .ok [.rxb 0x6B] ∧
  decode .recovering 0 [0x00, 0x02] = .ok [.resume] ∧
  decode .reading 3 [0x55, 0x05] = .ok [.mon, .rxb 0x55] ∧
  decode .reading 18 [0xFF, 0x0F] = .ok [.rst] ∧
  decode .reading 18 [0x00, 0x00] = .ok [.evalAccept, .evalReject] ∧
  decode .reading 3 [0x00, 0x10] = .error .evtTooWide ∧
  unpackFrame (frameOf [0x55, 0x55, 0x15, 0xA5, 0xD9, 0xB2, 0xFF, 0xFF, 0x00, 0x80, 0xFF, 0x7F, 0x01, 0xFF, 0x01, 0x80,
    0xEF, 0xBE]) =
    { chRX := 1365, chRY := 682, chLX := 1684, chLY := 364, swR := 3, swL := 2, mouseX := -1, mouseY := -32768
      mouseZ := 32767, mousePressL := 1, mousePressR := 255, keyMask := 0x8001, reserved := 0xBEEF }

/-- Decode of encode: every well-formed instruction, with every operand at every value, is among the operations its bytes
select in its own loop state, and is the only one of its mnemonic among them. FRAME144 rows share their words and
INTERNAL rows have none of their own, so a word selects several operations (R72; byte images: log 12). -/
def Obligations.DecodeOfEncodeGivesTheInstruction : Prop :=
  ∀ i : Instr, i.wellFormed = true →
    ∃ l, decode (homeOf i).1 (homeOf i).2 (encode i) = .ok l ∧ i ∈ l ∧
      ∀ j ∈ l, j.mnemonic = i.mnemonic → j = i

/-- Every frame selects the twenty-one FRAME144 operations, each on that very frame, and no other (R60, R72). -/
def Obligations.EveryFrameSelectsTheFrameOperations : Prop :=
  ∀ (bs : List Byte) (f : Fsm) (cnt : Nat), bs.length = 18 →
    ∃ l, decode f cnt bs = .ok l ∧ l.length = 21 ∧ (l.map Instr.mnemonic).Nodup ∧
      ∀ i, i ∈ l ↔ i.format = .frame144 ∧ encode i = bs

/-- The interface's word, placed, is the next thing run: for every event word the decoder's one row for it (log 11). -/
def Obligations.PlacedWordRunsNext : Prop :=
  ∀ (s : State) (w : Nat) (i : Instr), w < 2 ^ 12 → decodeTableWord 16 w = some i →
    step (s.withFetchWord 16 w) =
      exec i { s.withFetchWord 16 w with input := s.input, wires := Wires.quiet }

/-! ## The frame buffer -/

/-- The frame word's bit `k` is bit `k mod 8` of byte `k div 8`, and a two-byte read is little-endian (R6, R7, R40, R41;
bit order by the spec's reading D24). -/
def Obligations.BufferIsLittleEndian : Prop :=
  ∀ (m : Memory) (w : FrameWord), bufFrame m = some w →
    (∀ k, k < 144 → ∃ b, bufRead m (k / 8) = some b ∧ w.getLsbD k = b.getLsbD (k % 8)) ∧
    (∀ a, a + 2 ≤ 18 → ∃ lo hi, bufRead m a = some lo ∧ bufRead m (a + 1) = some hi ∧
      memRead m a 2 = some (lo.toNat + 256 * hi.toNat)) ∧
    memRead m 0 18 = some w.toNat

/-! ## Whole-machine rules -/

/-- Only `RXB` writes the buffer, one cell, at `cnt`, with the byte presented (R21, R28, R45); `RST` empties it. -/
def Obligations.OnlyRxbWritesTheBuffer : Prop :=
  ∀ (s t : State) (a : Nat), step s = .next t → bufRead t.buf a ≠ bufRead s.buf a →
    ∃ e, nextInput s = .evt e ∧
      ((evtRst e = true ∧ bufRead t.buf a = none) ∨
       (evtRst e = false ∧ evtRxValid e = true ∧ s.fsm = .reading ∧ s.cnt < 18 ∧ a = s.cnt ∧
         bufRead t.buf a = some (evtRxData e)))

/-- Only `EVAL.ACCEPT` writes the view, with the decode of the frame it judged (R24, R28, R128); `RST` empties it. -/
def Obligations.OnlyEvalAcceptWritesTheView : Prop :=
  ∀ s t : State, step s = .next t → t.view ≠ s.view →
    ∃ e, nextInput s = .evt e ∧
      ((evtRst e = true ∧ t.view = none) ∨
       (evtRst e = false ∧ s.fsm = .reading ∧ s.cnt = 18 ∧
         ∃ w, bufFrame s.buf = some w ∧ corruptFrame w = false ∧ t.view = some (unpackFrame w)))

/-- A step that is not a reset adds to the trace exactly one event when it is `EVAL`, and none otherwise (R25, R50,
R121); a step that takes a query (log 6) adds none. -/
def Obligations.TraceGrowsByOneAtEachEval : Prop :=
  ∀ s t : State, step s = .next t →
    (∀ e, nextInput s = .evt e → evtRst e = false →
      (s.fsm = .reading ∧ s.cnt = 18 → ∃ o, t.trace = s.trace ++ [o]) ∧
      (¬ (s.fsm = .reading ∧ s.cnt = 18) → t.trace = s.trace)) ∧
    (∀ i mask, nextInput s = .query i mask → t.trace = s.trace)

/-- The output wires follow the events (R70): after a step, `pub_valid` is 1 and the buses carry `d` exactly when the step
emitted `PUB(d)`, the three mouse buses as the two's-complement patterns of `d`'s values, which are the frame's own 16-bit
patterns; and `resync_req` is 1 exactly when it emitted `RESYNC`. Ports: decision D18; wire place: log 2; mouse buses:
log 17; two's complement: D7 (log 8). -/
def Obligations.OutputWiresFollowTheEvents : Prop :=
  ∀ s t : State, step s = .next t →
    (∀ d, t.wires.pub = some d ↔ t.trace = s.trace ++ [.pub d]) ∧
    (∀ d, t.wires.pub = some d →
      ((pubMouseBus d.mouseX).toInt = d.mouseX ∧ (pubMouseBus d.mouseY).toInt = d.mouseY ∧
        (pubMouseBus d.mouseZ).toInt = d.mouseZ) ∧
      ∃ w, bufFrame s.buf = some w ∧ pubMouseBus d.mouseX = w.extractLsb' 48 16 ∧
        pubMouseBus d.mouseY = w.extractLsb' 64 16 ∧ pubMouseBus d.mouseZ = w.extractLsb' 80 16) ∧
    (t.wires.resyncReq = true ↔ t.trace = s.trace ++ [.resync]) ∧
    (rxReady t = true ↔ t.fsm = .reading ∧ t.cnt < 18)

/-- THE GATE (R128): whatever a step appends to the trace, a `PUB(d)` among it is the only event appended, and the step
judged, in `READING`, a complete frame with `CORRUPT = 0` whose decode is `d`, so `d` is in the gate's ranges; and every
such frame that reaches `EVAL` is published. -/
def Obligations.NothingIsPublishedPastTheGate : Prop :=
  (∀ (s t : State) (new : List OutEvent) (d : DecodedFrame), step s = .next t → t.trace = s.trace ++ new →
    .pub d ∈ new → new = [.pub d] ∧ s.fsm = .reading ∧ s.cnt = 18 ∧
      ∃ w, bufFrame s.buf = some w ∧ corruptFrame w = false ∧ d = unpackFrame w ∧ GateOk d) ∧
  (∀ (s : State) (e : EvtWord) (w : FrameWord), nextInput s = .evt e → evtRst e = false → s.fsm = .reading →
    s.cnt = 18 → bufFrame s.buf = some w → corruptFrame w = false →
    ∃ t, step s = .next t ∧ t.trace = s.trace ++ [.pub (unpackFrame w)])

/-- In `RECOVERING` nothing but `RESUME` or `RST` does anything: no byte is taken, nothing is emitted, no second exception
is raised (R126, R143, R147). -/
def Obligations.RecoveryEndsOnlyByResumeOrRst : Prop :=
  ∀ (s t : State) (e : EvtWord), s.fsm = .recovering → nextInput s = .evt e → step s = .next t →
    (evtRst e = true ∧ t = { State.reset with input := s.input.tail }) ∨
    (evtRst e = false ∧ t.cnt = s.cnt ∧ t.buf = s.buf ∧ t.view = s.view ∧ t.trace = s.trace ∧
      (t.fsm = .reading ↔ evtResume e = true))

/-- The wires are no state: states that differ in them only take the same step (R27, R141). -/
def Obligations.WiresAreNeverRead : Prop :=
  ∀ s t : State, SameBlock s t → step s = step t

/-- Nothing observable depends on the old contents of `view` or on the cells not yet rewritten: states that differ in
those only take steps of the same outcome, with the same wires, the same trace, and differ in those only again (R26,
R47, R127 (c), U13). -/
def Obligations.OldContentsAreUnobservable : Prop :=
  ∀ s t : State, SameButOldContents s t →
    ResultRel (fun s' t' => SameButOldContents s' t' ∧ s'.wires = t'.wires) (step s) (step t)

/-! ## Runs -/

/-- One iteration: from `(READING, 0)` with any old contents, the eighteen bytes of any frame and the `EVAL` cycle end in
`(READING, 0)` with the frame published, or in `(RECOVERING, 0)` with one `RESYNC`, as `CORRUPT` says; the buffer holds the
bytes (R120 to R122, R143). -/
def Obligations.OneIterationJudgesOneFrame : Prop :=
  ∀ (s : State) (bs : List Byte) (rest : List Input), s.fsm = .reading → s.cnt = 0 → bs.length = 18 →
    s.input = scriptSend bs ++ rest →
    ∃ t, runSteps 19 s = .next t ∧ t.input = rest ∧ t.cnt = 0 ∧
      (∀ a, a < 18 → bufRead t.buf a = bs[a]?) ∧
      (corruptFrame (frameOf bs) = false → t.fsm = .reading ∧ t.view = some (unpackFrame (frameOf bs)) ∧
        t.trace = s.trace ++ [.pub (unpackFrame (frameOf bs))]) ∧
      (corruptFrame (frameOf bs) = true → t.fsm = .recovering ∧ t.view = s.view ∧ t.trace = s.trace ++ [.resync])

/-- R129 (a): after N consecutive corrupted frames, with the N or the N-1 `RESUME`s that let them follow one another, the
trace is `RESYNC` N times and no `PUB`; after N-1 `RESUME`s the block is still in `RECOVERING`. -/
def Obligations.CorruptedFramesGiveOnlyResyncs : Prop :=
  (∀ (s : State) (frames : List (List Byte)), s.fsm = .reading → s.cnt = 0 → s.trace = [] →
    (∀ bs ∈ frames, bs.length = 18 ∧ corruptFrame (frameOf bs) = true) → s.input = frames.flatMap scriptSendr →
    ∃ t, runSteps (20 * frames.length) s = .next t ∧ t.fsm = .reading ∧ t.cnt = 0 ∧
      t.trace = List.replicate frames.length .resync) ∧
  (∀ (s : State) (frames : List (List Byte)) (last : List Byte), s.fsm = .reading → s.cnt = 0 → s.trace = [] →
    (∀ bs ∈ frames ++ [last], bs.length = 18 ∧ corruptFrame (frameOf bs) = true) →
    s.input = frames.flatMap scriptSendr ++ scriptSend last →
    ∃ t, runSteps (20 * frames.length + 19) s = .next t ∧ t.fsm = .recovering ∧ t.cnt = 0 ∧
      t.trace = List.replicate (frames.length + 1) .resync)

/-- R129 (b): after a corrupted frame followed by a valid frame, exactly one publish, carrying the valid frame's
values. -/
def Obligations.CorruptedThenValidPublishesTheValid : Prop :=
  ∀ (s : State) (bad good : List Byte), s.fsm = .reading → s.cnt = 0 → s.trace = [] → bad.length = 18 →
    good.length = 18 → corruptFrame (frameOf bad) = true → corruptFrame (frameOf good) = false →
    s.input = scriptSendr bad ++ scriptSend good →
    ∃ t, runSteps 39 s = .next t ∧ t.trace = [.resync, .pub (unpackFrame (frameOf good))]

/-- R127 (e), (f) over every script: since the last `RST`, `PUB`s and `RESYNC`s together are the `EVAL`s, the `RXB`s are 18
times as many plus `cnt`, and the `RESYNC`s are the `RESUME`s, plus one in `RECOVERING`. -/
def Obligations.EventCountsMatchTheSteps : Prop :=
  ∀ (script : List Input) (n : Nat) (t : State),
    runSteps n { State.reset with input := script } = .next t →
    let k := tallyRun n { State.reset with input := script } {}
    pubCount t.trace + resyncCount t.trace = k.evals ∧ k.rxbs = 18 * k.evals + t.cnt ∧
      resyncCount t.trace = k.resumes + (if t.fsm = .recovering then 1 else 0)

/-- Every step keeps the counts of R127 (e), (f): if they match before a step, they match after it, the step being counted
as what it was. They match right after reset, with nothing counted. -/
def Obligations.EveryStepKeepsTheEventCounts : Prop :=
  CountsMatch State.reset {} ∧
    ∀ (s t : State) (k : Tally), CountsMatch s k → step s = .next t → CountsMatch t (tallyStep s k)

/-- What is presented is not the block's: no operation changes it, not even `RST` or the `RESYNC` of a rejection, and a step
takes exactly one item off it, whether or not its byte is received. The model's own place for it (logs 1, 18). -/
def Obligations.PresentedItemsAreTakenOneAStep : Prop :=
  (∀ (i : Instr) (s t : State), exec i s = .next t → t.input = s.input) ∧
    (∀ s t : State, step s = .next t → t.input = s.input.tail)

/-- R109: a channel's check is 0 exactly when the decoded value of that channel lies in `[364, 1684]`, whatever the other
channels and all that went before. -/
def Obligations.ChannelValidityIsMembership : Prop :=
  ∀ w : FrameWord,
    let d := unpackFrame w
    (badRx w = false ↔ 364 ≤ d.chRX.toNat ∧ d.chRX.toNat ≤ 1684) ∧
    (badRy w = false ↔ 364 ≤ d.chRY.toNat ∧ d.chRY.toNat ≤ 1684) ∧
    (badLx w = false ↔ 364 ≤ d.chLX.toNat ∧ d.chLX.toNat ≤ 1684) ∧
    (badLy w = false ↔ 364 ≤ d.chLY.toNat ∧ d.chLY.toNat ≤ 1684)
end

