-- ==== Sys2Proof/Laws/Bits.lean ====
section
/-! SUPPORT. Bytes and bits: the little-endian value of a byte list and back, the bits of a frame, each field as a number,
and two's complement. -/

namespace Sys2Proof.Machine

@[simp] theorem bytesOf_length (n v : Nat) : (bytesOf n v).length = n := by
  induction n generalizing v with
  | zero => rfl
  | succ n ih => simp [bytesOf, ih]

theorem leNat_lt (bs : List Byte) : leNat bs < 256 ^ bs.length := by
  induction bs with
  | nil => simp [leNat]
  | cons b bs ih =>
    have := b.isLt
    simp only [leNat, List.length_cons, pow_succ]
    omega

/-- Writing a number as bytes and reading it back keeps its low bytes. -/
theorem leNat_bytesOf (n v : Nat) : leNat (bytesOf n v) = v % 256 ^ n := by
  induction n generalizing v with
  | zero => simp [bytesOf, leNat, Nat.mod_one]
  | succ n ih =>
    simp only [bytesOf, leNat, ih, BitVec.toNat_ofNat]
    show v % 256 + 256 * (v / 256 % 256 ^ n) = v % 256 ^ (n + 1)
    rw [Nat.pow_succ, Nat.mul_comm (256 ^ n) 256, Nat.mod_mul]

/-- Reading a byte list and writing it back gives the list. -/
theorem bytesOf_leNat (bs : List Byte) : bytesOf bs.length (leNat bs) = bs := by
  induction bs with
  | nil => rfl
  | cons b bs ih =>
    have hb := b.isLt
    have h1 : (b.toNat + 256 * leNat bs) / 256 = leNat bs := by omega
    have h2 : BitVec.ofNat 8 (b.toNat + 256 * leNat bs) = b := by
      apply BitVec.eq_of_toNat_eq
      simp only [BitVec.toNat_ofNat]
      omega
    simp only [List.length_cons, leNat, bytesOf, h1, h2, ih]

/-- Byte `i` of a number's byte list (R65). -/
theorem bytesOf_getElem? (n v i : Nat) (h : i < n) : (bytesOf n v)[i]? = some (BitVec.ofNat 8 (v / 256 ^ i)) := by
  induction n generalizing v i with
  | zero => omega
  | succ n ih =>
    cases i with
    | zero => simp [bytesOf]
    | succ i =>
      simp only [bytesOf, List.getElem?_cons_succ]
      rw [ih _ _ (by omega), Nat.div_div_eq_div_mul, pow_succ, Nat.mul_comm 256]

theorem frameOf_toNat {bs : List Byte} (h : bs.length = 18) : (frameOf bs).toNat = leNat bs := by
  have := leNat_lt bs
  rw [h] at this
  simp only [frameOf, BitVec.toNat_ofNat]
  exact Nat.mod_eq_of_lt (by norm_num at this ⊢; exact this)

/-- A frame's bytes are the frame. -/
@[simp] theorem frameOf_bytesOf (w : FrameWord) : frameOf (bytesOf 18 w.toNat) = w := by
  apply BitVec.eq_of_toNat_eq
  rw [frameOf_toNat (by simp), leNat_bytesOf]
  exact Nat.mod_eq_of_lt (by have := w.isLt; norm_num at this ⊢; exact this)

/-- A frame word's bytes, from its own byte list. -/
theorem bytesOf_frameOf {bs : List Byte} (h : bs.length = 18) : bytesOf 18 (frameOf bs).toNat = bs := by
  rw [frameOf_toNat h, ← h, bytesOf_leNat]

/-- Bit `k` of a little-endian value is bit `k mod 8` of byte `k div 8` (R6). -/
theorem leNat_testBit (bs : List Byte) (k : Nat) :
    (leNat bs).testBit k = (bs.getD (k / 8) 0).getLsbD (k % 8) := by
  induction bs generalizing k with
  | nil => simp [leNat]
  | cons b bs ih =>
    have hb := b.isLt
    have hv : leNat (b :: bs) = 2 ^ 8 * leNat bs + b.toNat := by simp only [leNat]; omega
    rw [hv, Nat.testBit_two_pow_mul_add _ hb]
    by_cases h : k < 8
    · simp [h, Nat.div_eq_of_lt h, Nat.mod_eq_of_lt h, BitVec.getLsbD]
    · have h1 : k / 8 = (k - 8) / 8 + 1 := by omega
      have h2 : k % 8 = (k - 8) % 8 := by omega
      rw [if_neg h, ih, h1, h2]
      simp

/-- Bit `k` of the frame word (R6). -/
theorem frameOf_getLsbD (bs : List Byte) (k : Nat) (h : k < 144) :
    (frameOf bs).getLsbD k = (bs.getD (k / 8) 0).getLsbD (k % 8) := by
  rw [frameOf, BitVec.getLsbD_ofNat, leNat_testBit]
  simp [h]

/-- A slice of the frame word as a number. -/
theorem slice_toNat (w : FrameWord) (o n : Nat) : (w.extractLsb' o n).toNat = w.toNat / 2 ^ o % 2 ^ n := by
  simp [BitVec.extractLsb'_toNat, Nat.shiftRight_eq_div_pow]

/-- `sext_16` stays in the signed 16-bit range. -/
theorem sext16_range (p : BitVec 16) : -32768 ≤ sext16 p ∧ sext16 p ≤ 32767 := by
  have := p.isLt
  unfold sext16
  split <;> omega

/-- `u16` of `sext_16` is the pattern. -/
@[simp] theorem u16_sext16 (p : BitVec 16) : u16 (sext16 p) = p.toNat := by
  have := p.isLt
  unfold u16 sext16
  split <;> omega

theorem u16_lt (s : Int) : u16 s < 65536 := by
  unfold u16
  omega

/-- `sext_16` of a signed value's pattern is the value. -/
theorem sext16_u16 {s : Int} (h : -32768 ≤ s ∧ s ≤ 32767) : sext16 (BitVec.ofNat 16 (u16 s)) = s := by
  obtain ⟨h1, h2⟩ := h
  have hlt := u16_lt s
  have hv : (BitVec.ofNat 16 (u16 s)).toNat = u16 s := by
    rw [BitVec.toNat_ofNat]; exact Nat.mod_eq_of_lt hlt
  simp only [sext16, hv]
  unfold u16 at *
  split <;> omega

/-- The bus of a mouse field carries the frame's own pattern. -/
@[simp] theorem pubMouseBus_sext16 (p : BitVec 16) : pubMouseBus (sext16 p) = p := by
  simp [pubMouseBus]

/-- `sext_16` is the pattern's two's-complement value. -/
theorem toInt_eq_sext16 (p : BitVec 16) : p.toInt = sext16 p := by
  have := p.isLt
  rw [BitVec.toInt_eq_toNat_cond]
  unfold sext16
  split <;> split <;> omega

end Sys2Proof.Machine
end

