-- ==== Sys2Proof/Laws/State.lean ====
section
/-! SUPPORT. One lemma per field per update of the state, each true by unfolding, so that no later proof unfolds a
record update. -/

namespace Sys2Proof.Machine

@[simp] theorem setFsm_fsm (f : Fsm) (s : State) : (setFsm f s).fsm = f := rfl
@[simp] theorem setFsm_cnt (f : Fsm) (s : State) : (setFsm f s).cnt = s.cnt := rfl
@[simp] theorem setFsm_buf (f : Fsm) (s : State) : (setFsm f s).buf = s.buf := rfl
@[simp] theorem setFsm_view (f : Fsm) (s : State) : (setFsm f s).view = s.view := rfl
@[simp] theorem setFsm_trace (f : Fsm) (s : State) : (setFsm f s).trace = s.trace := rfl
@[simp] theorem setFsm_wires (f : Fsm) (s : State) : (setFsm f s).wires = s.wires := rfl
@[simp] theorem setFsm_input (f : Fsm) (s : State) : (setFsm f s).input = s.input := rfl

@[simp] theorem setCnt_fsm (n : Nat) (s : State) : (setCnt n s).fsm = s.fsm := rfl
@[simp] theorem setCnt_cnt (n : Nat) (s : State) : (setCnt n s).cnt = n := rfl
@[simp] theorem setCnt_buf (n : Nat) (s : State) : (setCnt n s).buf = s.buf := rfl
@[simp] theorem setCnt_view (n : Nat) (s : State) : (setCnt n s).view = s.view := rfl
@[simp] theorem setCnt_trace (n : Nat) (s : State) : (setCnt n s).trace = s.trace := rfl
@[simp] theorem setCnt_wires (n : Nat) (s : State) : (setCnt n s).wires = s.wires := rfl
@[simp] theorem setCnt_input (n : Nat) (s : State) : (setCnt n s).input = s.input := rfl

@[simp] theorem setBuf_fsm (m : Memory) (s : State) : (setBuf m s).fsm = s.fsm := rfl
@[simp] theorem setBuf_cnt (m : Memory) (s : State) : (setBuf m s).cnt = s.cnt := rfl
@[simp] theorem setBuf_buf (m : Memory) (s : State) : (setBuf m s).buf = m := rfl
@[simp] theorem setBuf_view (m : Memory) (s : State) : (setBuf m s).view = s.view := rfl
@[simp] theorem setBuf_trace (m : Memory) (s : State) : (setBuf m s).trace = s.trace := rfl
@[simp] theorem setBuf_wires (m : Memory) (s : State) : (setBuf m s).wires = s.wires := rfl
@[simp] theorem setBuf_input (m : Memory) (s : State) : (setBuf m s).input = s.input := rfl

@[simp] theorem setView_fsm (d : DecodedFrame) (s : State) : (setView d s).fsm = s.fsm := rfl
@[simp] theorem setView_cnt (d : DecodedFrame) (s : State) : (setView d s).cnt = s.cnt := rfl
@[simp] theorem setView_buf (d : DecodedFrame) (s : State) : (setView d s).buf = s.buf := rfl
@[simp] theorem setView_view (d : DecodedFrame) (s : State) : (setView d s).view = some d := rfl
@[simp] theorem setView_trace (d : DecodedFrame) (s : State) : (setView d s).trace = s.trace := rfl
@[simp] theorem setView_wires (d : DecodedFrame) (s : State) : (setView d s).wires = s.wires := rfl
@[simp] theorem setView_input (d : DecodedFrame) (s : State) : (setView d s).input = s.input := rfl

@[simp] theorem drive_fsm (f : Wires → Wires) (s : State) : (drive f s).fsm = s.fsm := rfl
@[simp] theorem drive_cnt (f : Wires → Wires) (s : State) : (drive f s).cnt = s.cnt := rfl
@[simp] theorem drive_buf (f : Wires → Wires) (s : State) : (drive f s).buf = s.buf := rfl
@[simp] theorem drive_view (f : Wires → Wires) (s : State) : (drive f s).view = s.view := rfl
@[simp] theorem drive_trace (f : Wires → Wires) (s : State) : (drive f s).trace = s.trace := rfl
@[simp] theorem drive_wires (f : Wires → Wires) (s : State) : (drive f s).wires = f s.wires := rfl
@[simp] theorem drive_input (f : Wires → Wires) (s : State) : (drive f s).input = s.input := rfl

@[simp] theorem emitPub_fsm (d : DecodedFrame) (s : State) : (emitPub d s).fsm = s.fsm := rfl
@[simp] theorem emitPub_cnt (d : DecodedFrame) (s : State) : (emitPub d s).cnt = s.cnt := rfl
@[simp] theorem emitPub_buf (d : DecodedFrame) (s : State) : (emitPub d s).buf = s.buf := rfl
@[simp] theorem emitPub_view (d : DecodedFrame) (s : State) : (emitPub d s).view = s.view := rfl
@[simp] theorem emitPub_trace (d : DecodedFrame) (s : State) : (emitPub d s).trace = s.trace ++ [.pub d] := rfl
@[simp] theorem emitPub_wires (d : DecodedFrame) (s : State) : (emitPub d s).wires = { s.wires with pub := some d } := rfl
@[simp] theorem emitPub_input (d : DecodedFrame) (s : State) : (emitPub d s).input = s.input := rfl

@[simp] theorem emitResync_fsm (s : State) : (emitResync s).fsm = s.fsm := rfl
@[simp] theorem emitResync_cnt (s : State) : (emitResync s).cnt = s.cnt := rfl
@[simp] theorem emitResync_buf (s : State) : (emitResync s).buf = s.buf := rfl
@[simp] theorem emitResync_view (s : State) : (emitResync s).view = s.view := rfl
@[simp] theorem emitResync_trace (s : State) : (emitResync s).trace = s.trace ++ [.resync] := rfl
@[simp] theorem emitResync_wires (s : State) : (emitResync s).wires = { s.wires with resyncReq := true } := rfl
@[simp] theorem emitResync_input (s : State) : (emitResync s).input = s.input := rfl

@[simp] theorem beginStep_fsm (s : State) : (beginStep s).fsm = s.fsm := rfl
@[simp] theorem beginStep_cnt (s : State) : (beginStep s).cnt = s.cnt := rfl
@[simp] theorem beginStep_buf (s : State) : (beginStep s).buf = s.buf := rfl
@[simp] theorem beginStep_view (s : State) : (beginStep s).view = s.view := rfl
@[simp] theorem beginStep_trace (s : State) : (beginStep s).trace = s.trace := rfl
@[simp] theorem beginStep_wires (s : State) : (beginStep s).wires = Wires.quiet := rfl
@[simp] theorem beginStep_input (s : State) : (beginStep s).input = s.input.tail := rfl

@[simp] theorem raiseFrameCorrupt_fsm (bad : BitVec 6) (s : State) : (raiseFrameCorrupt bad s).fsm = .recovering := rfl
@[simp] theorem raiseFrameCorrupt_cnt (bad : BitVec 6) (s : State) : (raiseFrameCorrupt bad s).cnt = 0 := rfl
@[simp] theorem raiseFrameCorrupt_buf (bad : BitVec 6) (s : State) : (raiseFrameCorrupt bad s).buf = s.buf := rfl
@[simp] theorem raiseFrameCorrupt_view (bad : BitVec 6) (s : State) : (raiseFrameCorrupt bad s).view = s.view := rfl
@[simp] theorem raiseFrameCorrupt_trace (bad : BitVec 6) (s : State) : (raiseFrameCorrupt bad s).trace = s.trace ++ [.resync] := rfl
@[simp] theorem raiseFrameCorrupt_wires (bad : BitVec 6) (s : State) : (raiseFrameCorrupt bad s).wires = { s.wires with resyncReq := true } := rfl
@[simp] theorem raiseFrameCorrupt_input (bad : BitVec 6) (s : State) : (raiseFrameCorrupt bad s).input = s.input := rfl

@[simp] theorem returnFromRecovery_fsm (s : State) : (returnFromRecovery s).fsm = .reading := rfl
@[simp] theorem returnFromRecovery_cnt (s : State) : (returnFromRecovery s).cnt = s.cnt := rfl
@[simp] theorem returnFromRecovery_buf (s : State) : (returnFromRecovery s).buf = s.buf := rfl
@[simp] theorem returnFromRecovery_view (s : State) : (returnFromRecovery s).view = s.view := rfl
@[simp] theorem returnFromRecovery_trace (s : State) : (returnFromRecovery s).trace = s.trace := rfl
@[simp] theorem returnFromRecovery_wires (s : State) : (returnFromRecovery s).wires = s.wires := rfl
@[simp] theorem returnFromRecovery_input (s : State) : (returnFromRecovery s).input = s.input := rfl

@[simp] theorem acceptFrame_fsm (w : FrameWord) (s : State) : (acceptFrame w s).fsm = s.fsm := rfl
@[simp] theorem acceptFrame_cnt (w : FrameWord) (s : State) : (acceptFrame w s).cnt = 0 := rfl
@[simp] theorem acceptFrame_buf (w : FrameWord) (s : State) : (acceptFrame w s).buf = s.buf := rfl
@[simp] theorem acceptFrame_view (w : FrameWord) (s : State) : (acceptFrame w s).view = some (unpackFrame w) := rfl
@[simp] theorem acceptFrame_trace (w : FrameWord) (s : State) : (acceptFrame w s).trace = s.trace ++ [.pub (unpackFrame w)] := rfl
@[simp] theorem acceptFrame_wires (w : FrameWord) (s : State) : (acceptFrame w s).wires = { s.wires with pub := some (unpackFrame w) } := rfl
@[simp] theorem acceptFrame_input (w : FrameWord) (s : State) : (acceptFrame w s).input = s.input := rfl

@[simp] theorem resetBlock_fsm (s : State) : (resetBlock s).fsm = .reading := rfl
@[simp] theorem resetBlock_cnt (s : State) : (resetBlock s).cnt = 0 := rfl
@[simp] theorem resetBlock_buf (s : State) : (resetBlock s).buf = [] := rfl
@[simp] theorem resetBlock_view (s : State) : (resetBlock s).view = none := rfl
@[simp] theorem resetBlock_trace (s : State) : (resetBlock s).trace = [] := rfl
@[simp] theorem resetBlock_wires (s : State) : (resetBlock s).wires = Wires.quiet := rfl
@[simp] theorem resetBlock_input (s : State) : (resetBlock s).input = s.input := rfl

@[simp] theorem reset_fsm : State.reset.fsm = .reading := rfl
@[simp] theorem reset_cnt : State.reset.cnt = 0 := rfl
@[simp] theorem reset_buf : State.reset.buf = [] := rfl
@[simp] theorem reset_view : State.reset.view = none := rfl
@[simp] theorem reset_trace : State.reset.trace = [] := rfl
@[simp] theorem reset_wires : State.reset.wires = Wires.quiet := rfl
@[simp] theorem reset_input : State.reset.input = [] := rfl

/-- Two states with equal fields are equal. -/
theorem state_ext {s t : State} (h1 : s.fsm = t.fsm) (h2 : s.cnt = t.cnt) (h3 : s.buf = t.buf) (h4 : s.view = t.view)
    (h5 : s.trace = t.trace) (h6 : s.wires = t.wires) (h7 : s.input = t.input) : s = t := by
  cases s; cases t; simp_all

/-- `drive` twice is one drive. -/
@[simp] theorem drive_drive (f g : Wires → Wires) (s : State) : drive f (drive g s) = drive (fun x => f (g x)) s := rfl

end Sys2Proof.Machine
end

