-- ==== Sys2Proof/Laws/Memory.lean ====
section
/-! SUPPORT. The frame buffer: read after write, the canonical form, snapshots, byte lists. -/

namespace Sys2Proof.Machine

@[simp] theorem bufRead_nil (a : Nat) : bufRead [] a = none := rfl

@[simp] theorem bufRead_cons (k : Nat) (b : Byte) (m : Memory) (a : Nat) :
    bufRead ((k, b) :: m) a = if k = a then some b else bufRead m a := rfl

/-- A read after a write to the same cell gives the value written. -/
@[simp] theorem bufRead_write_same (m : Memory) (a : Nat) (v : Byte) : bufRead (bufWrite m a v) a = some v := by
  induction m with
  | nil => simp [bufWrite]
  | cons c m ih =>
    obtain ⟨k, b⟩ := c
    by_cases h1 : a < k
    · simp [bufWrite, h1]
    · by_cases h2 : a = k
      · simp [bufWrite, h2]
      · simp [bufWrite, h1, h2, Ne.symm h2, ih]

/-- A write leaves every other cell alone (R46). -/
theorem bufRead_write_other (m : Memory) {a c : Nat} (v : Byte) (h : c ≠ a) :
    bufRead (bufWrite m a v) c = bufRead m c := by
  induction m with
  | nil => simp [bufWrite, Ne.symm h]
  | cons x m ih =>
    obtain ⟨k, b⟩ := x
    by_cases h1 : a < k
    · simp [bufWrite, h1, Ne.symm h]
    · by_cases h2 : a = k
      · subst h2; simp [bufWrite, Ne.symm h]
      · simp [bufWrite, h1, h2, ih]

theorem bufRead_write (m : Memory) (a c : Nat) (v : Byte) :
    bufRead (bufWrite m a v) c = if c = a then some v else bufRead m c := by
  split
  · next h => subst h; simp
  · next h => exact bufRead_write_other m v h

/-- The cells listed after a write: the written one and those listed before. -/
theorem mem_bufWrite {m : Memory} {a : Nat} {v : Byte} {c : Host.Cell} (h : c ∈ bufWrite m a v) :
    c = (a, v) ∨ c ∈ m := by
  induction m with
  | nil => simpa [bufWrite] using h
  | cons x m ih =>
    obtain ⟨k, b⟩ := x
    simp only [bufWrite] at h
    split at h
    · simpa using h
    · split at h
      · rcases List.mem_cons.mp h with h | h
        · exact .inl h
        · exact .inr (List.mem_cons_of_mem _ h)
      · rcases List.mem_cons.mp h with h | h
        · exact .inr (h ▸ List.mem_cons_self)
        · exact (ih h).imp id (List.mem_cons_of_mem _)

/-- A write inside the eighteen cells keeps the canonical form. -/
theorem bufWrite_wf {m : Memory} {a : Nat} (v : Byte) (hm : m.wf) (ha : a < 18) : Memory.wf (bufWrite m a v) := by
  refine ⟨?_, fun c hc => ?_⟩
  · have hp := hm.1
    clear hm
    induction m with
    | nil => simp [bufWrite]
    | cons x m ih =>
      obtain ⟨k, b⟩ := x
      obtain ⟨hx, hp'⟩ := List.pairwise_cons.mp hp
      simp only [bufWrite]
      split
      · next h =>
        refine List.pairwise_cons.mpr ⟨fun c hc => ?_, hp⟩
        rcases List.mem_cons.mp hc with hc | hc
        · subst hc; exact h
        · exact lt_trans h (hx c hc)
      · next h1 =>
        split
        · next h2 => subst h2; exact List.pairwise_cons.mpr ⟨hx, hp'⟩
        · next h2 =>
          refine List.pairwise_cons.mpr ⟨fun c hc => ?_, ih hp'⟩
          rcases mem_bufWrite hc with hc | hc
          · subst hc; show k < a; omega
          · exact hx c hc
  · rcases mem_bufWrite hc with hc | hc
    · subst hc; simpa using ha
    · exact hm.2 c hc

theorem bufWf_nil : Memory.wf [] := ⟨List.Pairwise.nil, by simp⟩

/-- A snapshot exists when every cell in it holds a value. -/
theorem bufBytes_some (m : Memory) (a n : Nat) (h : ∀ c, a ≤ c → c < a + n → ∃ b, bufRead m c = some b) :
    ∃ bs, bufBytes m a n = some bs ∧ bs.length = n := by
  induction n generalizing a with
  | zero => exact ⟨[], rfl, rfl⟩
  | succ n ih =>
    obtain ⟨b, hb⟩ := h a (by omega) (by omega)
    obtain ⟨bs, hbs, hl⟩ := ih (a + 1) (fun c h1 h2 => h c (by omega) (by omega))
    exact ⟨b :: bs, by simp [bufBytes, hb, hbs], by simp [hl]⟩

/-- Buffers that agree on the cells of a snapshot give the same snapshot. -/
theorem bufBytes_congr {m m' : Memory} {a n : Nat} (h : ∀ c, a ≤ c → c < a + n → bufRead m c = bufRead m' c) :
    bufBytes m a n = bufBytes m' a n := by
  induction n generalizing a with
  | zero => rfl
  | succ n ih =>
    simp only [bufBytes]
    rw [h a (by omega) (by omega), ih (fun c h1 h2 => h c (by omega) (by omega))]

/-- The snapshot's bytes are the cells' values. -/
theorem bufBytes_spec {m : Memory} {a n : Nat} {bs : List Byte} (h : bufBytes m a n = some bs) :
    bs.length = n ∧ ∀ i, i < n → bufRead m (a + i) = bs[i]? := by
  induction n generalizing a bs with
  | zero => simp [bufBytes] at h; subst h; simp
  | succ n ih =>
    simp only [bufBytes] at h
    split at h
    · next b rest hb hr =>
      cases h
      obtain ⟨hl, hs⟩ := ih hr
      refine ⟨by simp [hl], fun i hi => ?_⟩
      cases i with
      | zero => simpa using hb
      | succ i => simpa [Nat.add_assoc, Nat.add_comm 1 i] using hs i (by omega)
    · cases h

/-- A snapshot from cells known one by one. -/
theorem bufBytes_of_read {m : Memory} {a : Nat} {bs : List Byte}
    (h : ∀ i, i < bs.length → bufRead m (a + i) = bs[i]?) : bufBytes m a bs.length = some bs := by
  induction bs generalizing a with
  | nil => rfl
  | cons b bs ih =>
    have h0 := h 0 (by simp)
    simp at h0
    have hr := ih (a := a + 1) (fun i hi => by
      have := h (i + 1) (by simpa using hi)
      simpa [Nat.add_assoc, Nat.add_comm 1 i] using this)
    simp [bufBytes, h0, hr]

theorem bufFrame_eq (m : Memory) : bufFrame m = (bufBytes m 0 18).map frameOf := by
  simp only [bufFrame, memRead, Config.frameBytes, Nat.zero_add, le_refl, if_true, Option.map_map]
  rfl

/-- Buffers that agree on the eighteen cells hold the same frame. -/
theorem bufFrame_congr {m m' : Memory} (h : ∀ c, c < 18 → bufRead m c = bufRead m' c) : bufFrame m = bufFrame m' := by
  rw [bufFrame_eq, bufFrame_eq, bufBytes_congr (fun c _ hc => h c (by omega))]

/-- A buffer whose eighteen cells hold values holds a frame. -/
theorem bufFrame_some {m : Memory} (h : ∀ c, c < 18 → ∃ b, bufRead m c = some b) : ∃ w, bufFrame m = some w := by
  obtain ⟨bs, hbs, _⟩ := bufBytes_some m 0 18 (fun c _ hc => h c (by omega))
  exact ⟨frameOf bs, by simp [bufFrame_eq, hbs]⟩

/-- A buffer whose cells hold the eighteen bytes `bs` holds the frame of `bs`. -/
theorem bufFrame_of_bytes {m : Memory} {bs : List Byte} (hl : bs.length = 18)
    (h : ∀ i, i < 18 → bufRead m i = bs[i]?) : bufFrame m = some (frameOf bs) := by
  have := bufBytes_of_read (m := m) (a := 0) (bs := bs) (fun i hi => by simpa using h i (by omega))
  rw [hl] at this
  simp [bufFrame_eq, this]

/-- The buffer made from a byte list holds those bytes. -/
theorem bufRead_bufFrom (a : Nat) (bs : List Byte) (i : Nat) : bufRead (bufFrom a bs) (a + i) = bs[i]? := by
  induction bs generalizing a i with
  | nil => simp [bufFrom]
  | cons b bs ih =>
    cases i with
    | zero => simp [bufFrom]
    | succ i =>
      have := ih (a + 1) i
      simp [bufFrom]
      rw [← this]; congr 1; omega

theorem bufFrame_bufFrom {bs : List Byte} (h : bs.length = 18) : bufFrame (bufFrom 0 bs) = some (frameOf bs) :=
  bufFrame_of_bytes h (fun i _ => by simpa using bufRead_bufFrom 0 bs i)

theorem bufFrom_ge {a : Nat} {bs : List Byte} {c : Host.Cell} (h : c ∈ bufFrom a bs) :
    a ≤ c.1 ∧ c.1 < a + bs.length := by
  induction bs generalizing a with
  | nil => simp [bufFrom] at h
  | cons b bs ih =>
    rcases List.mem_cons.mp h with h | h
    · subst h; simp
    · have := ih h; simp only [List.length_cons]; omega

/-- The buffer made from at most eighteen bytes is in canonical form. -/
theorem bufFrom_wf {bs : List Byte} (h : bs.length ≤ 18) : Memory.wf (bufFrom 0 bs) := by
  refine ⟨?_, fun c hc => by have := bufFrom_ge hc; simp only [Config.frameBytes]; omega⟩
  suffices ∀ a, (bufFrom a bs).Pairwise (fun c d => c.1 < d.1) from this 0
  clear h
  induction bs with
  | nil => intro a; simp [bufFrom]
  | cons b bs ih =>
    intro a
    refine List.pairwise_cons.mpr ⟨fun c hc => ?_, ih (a + 1)⟩
    have := bufFrom_ge hc
    show a < c.1
    omega

end Sys2Proof.Machine
end

