-- ==== Sys2Proof/Laws/Exec.lean ====
section
/-! SUPPORT. What each shared operation and each family of meanings can do, said once: the combinational operations drive
wires and nothing else; the sequencer's operations, enabled and not enabled; an `EVAL` in closed form. -/

namespace Sys2Proof.Machine

@[simp] theorem runOps_nil (s : State) : runOps [] s = .next s := rfl

theorem runOps_cons (i : Instr) (is : List Instr) (s : State) :
    runOps (i :: is) s = match exec i s with
      | .next t => runOps is t
      | .fault r => .fault r
      | .refused r => .refused r := rfl

theorem runOps_cons_next {i : Instr} {is : List Instr} {s t : State} (h : exec i s = .next t) :
    runOps (i :: is) s = runOps is t := by rw [runOps_cons, h]

@[simp] theorem runOps_single (i : Instr) (s : State) : runOps [i] s = exec i s := by
  rw [runOps_cons]; cases exec i s <;> rfl

/-- `MON` before the cycle's step changes nothing (R123). -/
@[simp] theorem runOps_monOps (e : EvtWord) (is : List Instr) (s : State) :
    runOps (monOps e ++ is) s = runOps is s := by
  unfold monOps
  split
  · exact runOps_cons_next rfl
  · rfl

/-- The wires of the gate of a frame (R100 to R106). -/
def gateDrive (w : FrameWord) (x : Wires) : Wires :=
  { x with
    badSwl := some (badSwl w), badSwr := some (badSwr w), badLy := some (badLy w), badLx := some (badLx w)
    badRy := some (badRy w), badRx := some (badRx w), corrupt := some (corruptFrame w) }

/-- The wires of the decode of a frame (R80 to R93). -/
def unpackDrive (w : FrameWord) (x : Wires) : Wires :=
  { x with
    chRX := some (fieldChRX w), chRY := some (fieldChRY w), chLX := some (fieldChLX w), chLY := some (fieldChLY w)
    swR := some (fieldSwR w), swL := some (fieldSwL w), mouseX := some (fieldMouseX w)
    mouseY := some (fieldMouseY w), mouseZ := some (fieldMouseZ w), mousePressL := some (fieldMousePressL w)
    mousePressR := some (fieldMousePressR w), keyMask := some (fieldKeyMask w), reserved := some (fieldReserved w)
    decoded := some (unpackFrame w) }

/-- The gate's seven operations drive their wires and do nothing else. -/
theorem runOps_gateOps (w : FrameWord) (is : List Instr) (s : State) :
    runOps (gateOps w ++ is) s = runOps is (drive (gateDrive w) s) := by
  simp only [gateOps, List.cons_append, List.nil_append]
  iterate 7 rw [runOps_cons_next (t := _) rfl]
  simp only [drive_drive]
  rfl

/-- The decode's fourteen operations drive their wires and do nothing else. -/
theorem runOps_unpackOps (w : FrameWord) (is : List Instr) (s : State) :
    runOps (unpackOps w ++ is) s = runOps is (drive (unpackDrive w) s) := by
  simp only [unpackOps, List.cons_append, List.nil_append]
  iterate 14 rw [runOps_cons_next (t := _) rfl]
  simp only [drive_drive]
  rfl

/-- A FRAME144 operation answers a next state and touches wires only (R95 (a)). -/
theorem exec_frame144 {i : Instr} (h : i.format = .frame144) (s : State) :
    ∃ f, exec i s = .next (drive f s) := by
  cases i <;> simp only [Instr.format, reduceCtorEq] at h <;> exact ⟨_, rfl⟩

theorem withFrame_some {s : State} {w : FrameWord} (h : bufFrame s.buf = some w) (k : FrameWord → Result) :
    withFrame s k = k w := by simp [withFrame, h]

theorem withFrame_none {s : State} (h : bufFrame s.buf = none) (k : FrameWord → Result) :
    withFrame s k = .fault .emptyCell := by simp [withFrame, h]

theorem withFrame_next {s t : State} {k : FrameWord → Result} (h : withFrame s k = .next t) :
    ∃ w, bufFrame s.buf = some w ∧ k w = .next t := by
  unfold withFrame at h
  split at h
  · next w hw => exact ⟨w, hw, h⟩
  · cases h

theorem rxReady_iff (s : State) : rxReady s = true ↔ s.fsm = .reading ∧ s.cnt < 18 := decide_eq_true_iff

theorem evalEnabled_iff (s : State) : evalEnabled s = true ↔ s.fsm = .reading ∧ s.cnt = 18 :=
  decide_eq_true_iff

theorem exec_rxb_enabled {s : State} (b : Byte) (h1 : s.fsm = .reading) (h2 : s.cnt < 18) :
    exec (.rxb b) s = .next (setCnt (s.cnt + 1) (setBuf (bufWrite s.buf s.cnt b) s)) := by
  show execRxb b s = _
  rw [execRxb, if_pos ((rxReady_iff s).mpr ⟨h1, h2⟩)]

theorem exec_rxb_disabled {s : State} (b : Byte) (h : ¬ (s.fsm = .reading ∧ s.cnt < 18)) :
    exec (.rxb b) s = .next s := by
  show execRxb b s = _
  rw [execRxb, if_neg (by rw [rxReady_iff]; exact h)]

theorem exec_evalAccept_enabled {s : State} {w : FrameWord} (h1 : s.fsm = .reading) (h2 : s.cnt = 18)
    (hw : bufFrame s.buf = some w) (hc : corruptFrame w = false) :
    exec .evalAccept s = .next (acceptFrame w s) := by
  show execEvalAccept s = _
  rw [execEvalAccept, if_pos ((evalEnabled_iff s).mpr ⟨h1, h2⟩), withFrame_some hw, if_neg (by simp [hc])]

theorem exec_evalReject_enabled {s : State} {w : FrameWord} (h1 : s.fsm = .reading) (h2 : s.cnt = 18)
    (hw : bufFrame s.buf = some w) (hc : corruptFrame w = true) :
    exec .evalReject s = .next (raiseFrameCorrupt (causeVector w) s) := by
  show execEvalReject s = _
  rw [execEvalReject, if_pos ((evalEnabled_iff s).mpr ⟨h1, h2⟩), withFrame_some hw, if_pos hc]

/-- The state an `EVAL` of the frame `w` leads to (R121, R122, R143). -/
def evalResult (w : FrameWord) (s : State) : State :=
  if corruptFrame w then raiseFrameCorrupt (causeVector w) (drive (gateDrive w) s)
  else acceptFrame w (drive (unpackDrive w) (drive (gateDrive w) s))

/-- The `EVAL` of a corrupt frame takes the exception (R143). -/
theorem evalResult_reject {w : FrameWord} {s : State} (h : corruptFrame w = true) :
    evalResult w s = raiseFrameCorrupt (causeVector w) (drive (gateDrive w) s) := by simp [evalResult, h]

/-- The `EVAL` of a valid frame publishes it (R122). -/
theorem evalResult_accept {w : FrameWord} {s : State} (h : corruptFrame w = false) :
    evalResult w s = acceptFrame w (drive (unpackDrive w) (drive (gateDrive w) s)) := by simp [evalResult, h]

/-- No `EVAL` writes the buffer. -/
@[simp] theorem evalResult_buf (w : FrameWord) (s : State) : (evalResult w s).buf = s.buf := by
  unfold evalResult
  split <;> rfl

/-- An `EVAL`'s operations in closed form. -/
theorem runOps_evalOps {s : State} {w : FrameWord} (h1 : s.fsm = .reading) (h2 : s.cnt = 18)
    (hw : bufFrame s.buf = some w) : runOps (evalOps w) s = .next (evalResult w s) := by
  unfold evalOps evalResult
  rw [runOps_gateOps]
  split
  · next hc =>
    rw [runOps_single, exec_evalReject_enabled (w := w) (by simpa using h1) (by simpa using h2) (by simpa using hw) hc]
  · next hc =>
    rw [runOps_unpackOps, runOps_single,
      exec_evalAccept_enabled (w := w) (by simpa using h1) (by simpa using h2) (by simpa using hw) (by simpa using hc)]

end Sys2Proof.Machine
end

