-- ==== Sys2Proof/Laws/PerInstr.lean ====
section
/-! SUPPORT. The family `ImageLength`: the number of bytes of an instruction's image is its format's, eighteen for
FRAME144 (rule R60), two for EVT12 and INTERNAL, three for QUERY (log 12). One lemma per constructor. -/

namespace Sys2Proof.Laws.ImageLength

/-- The bytes of a format's image. -/
def bytesOfFormat : Format → Nat
  | .frame144 => 18
  | .query => 3
  | .evt12 => 2
  | .internal => 2

/-- An instruction's image has its format's length. -/
def Statement (i : Instr) : Prop := (encode i).length = bytesOfFormat i.format

theorem unpkChrx (w : FrameWord) : Statement (.unpkChrx w) := Machine.bytesOf_length 18 w.toNat
theorem unpkChry (w : FrameWord) : Statement (.unpkChry w) := Machine.bytesOf_length 18 w.toNat
theorem unpkChlx (w : FrameWord) : Statement (.unpkChlx w) := Machine.bytesOf_length 18 w.toNat
theorem unpkChly (w : FrameWord) : Statement (.unpkChly w) := Machine.bytesOf_length 18 w.toNat
theorem unpkSwr (w : FrameWord) : Statement (.unpkSwr w) := Machine.bytesOf_length 18 w.toNat
theorem unpkSwl (w : FrameWord) : Statement (.unpkSwl w) := Machine.bytesOf_length 18 w.toNat
theorem unpkMx (w : FrameWord) : Statement (.unpkMx w) := Machine.bytesOf_length 18 w.toNat
theorem unpkMy (w : FrameWord) : Statement (.unpkMy w) := Machine.bytesOf_length 18 w.toNat
theorem unpkMz (w : FrameWord) : Statement (.unpkMz w) := Machine.bytesOf_length 18 w.toNat
theorem unpkMpl (w : FrameWord) : Statement (.unpkMpl w) := Machine.bytesOf_length 18 w.toNat
theorem unpkMpr (w : FrameWord) : Statement (.unpkMpr w) := Machine.bytesOf_length 18 w.toNat
theorem unpkKey (w : FrameWord) : Statement (.unpkKey w) := Machine.bytesOf_length 18 w.toNat
theorem unpkRes (w : FrameWord) : Statement (.unpkRes w) := Machine.bytesOf_length 18 w.toNat
theorem unpack (w : FrameWord) : Statement (.unpack w) := Machine.bytesOf_length 18 w.toNat
theorem keyheld (i : Nat) (mask : BitVec 16) : Statement (.keyheld i mask) := rfl
theorem chkRx (w : FrameWord) : Statement (.chkRx w) := Machine.bytesOf_length 18 w.toNat
theorem chkRy (w : FrameWord) : Statement (.chkRy w) := Machine.bytesOf_length 18 w.toNat
theorem chkLx (w : FrameWord) : Statement (.chkLx w) := Machine.bytesOf_length 18 w.toNat
theorem chkLy (w : FrameWord) : Statement (.chkLy w) := Machine.bytesOf_length 18 w.toNat
theorem chkSwr (w : FrameWord) : Statement (.chkSwr w) := Machine.bytesOf_length 18 w.toNat
theorem chkSwl (w : FrameWord) : Statement (.chkSwl w) := Machine.bytesOf_length 18 w.toNat
theorem corrupt (w : FrameWord) : Statement (.corrupt w) := Machine.bytesOf_length 18 w.toNat
theorem rxb (b : Byte) : Statement (.rxb b) := rfl
theorem evalAccept : Statement .evalAccept := rfl
theorem evalReject : Statement .evalReject := rfl
theorem resume : Statement .resume := rfl
theorem mon : Statement .mon := rfl
theorem idle : Statement .idle := rfl
theorem rst : Statement .rst := rfl

end Sys2Proof.Laws.ImageLength
end

