-- ==== Sys2Proof/Laws/Step.lean ====
section
/-! SUPPORT. The selection of a cycle (rule R69), a cycle in closed form, and the inversion of a step: everything a step
that answers a next state can have done. -/

namespace Sys2Proof.Machine

theorem selectEvt_rst {e : EvtWord} (h : evtRst e = true) (f : Fsm) (n : Nat) : selectEvt f n e = .op .rst := by
  simp [selectEvt, h]

theorem selectEvt_eval {e : EvtWord} (h : evtRst e = false) : selectEvt .reading 18 e = .eval := by
  simp [selectEvt, h]

theorem selectEvt_rxb {e : EvtWord} {n : Nat} (h : evtRst e = false) (hv : evtRxValid e = true) (hn : n < 18) :
    selectEvt .reading n e = .op (.rxb (evtRxData e)) := by
  simp [selectEvt, h, hv, hn, Nat.ne_of_lt hn]

theorem selectEvt_resume {e : EvtWord} (h : evtRst e = false) (hv : evtResume e = true) (n : Nat) :
    selectEvt .recovering n e = .op .resume := by
  simp [selectEvt, h, hv]

/-- Everything a cycle's selection can be. -/
theorem selectEvt_cases (f : Fsm) (n : Nat) (e : EvtWord) :
    (evtRst e = true ∧ selectEvt f n e = .op .rst) ∨
    (evtRst e = false ∧ f = .reading ∧ n = 18 ∧ selectEvt f n e = .eval) ∨
    (evtRst e = false ∧ f = .reading ∧ n < 18 ∧ evtRxValid e = true ∧ selectEvt f n e = .op (.rxb (evtRxData e))) ∨
    (evtRst e = false ∧ f = .recovering ∧ evtResume e = true ∧ selectEvt f n e = .op .resume) ∨
    (evtRst e = false ∧ ¬ (f = .reading ∧ n = 18) ∧ ¬ (evtRxValid e = true ∧ f = .reading ∧ n < 18) ∧
      ¬ (evtResume e = true ∧ f = .recovering) ∧ selectEvt f n e = .op .idle) := by
  simp only [selectEvt, Config.frameBytes]
  by_cases h1 : evtRst e = true
  · simp [h1]
  · by_cases h2 : f = .reading ∧ n = 18
    · simp [h1, h2]
    · by_cases h3 : evtRxValid e = true ∧ f = .reading ∧ n < 18
      · refine .inr (.inr (.inl ⟨by simpa using h1, h3.2.1, h3.2.2, h3.1, ?_⟩))
        rw [if_neg h1, if_neg h2, if_pos h3]
      · by_cases h4 : evtResume e = true ∧ f = .recovering
        · refine .inr (.inr (.inr (.inl ⟨by simpa using h1, h4.2, h4.1, ?_⟩)))
          rw [if_neg h1, if_neg h2, if_neg h3, if_pos h4]
        · refine .inr (.inr (.inr (.inr ⟨by simpa using h1, h2, h3, h4, ?_⟩)))
          rw [if_neg h1, if_neg h2, if_neg h3, if_neg h4]

/-- A cycle that selects an operation runs it; `MON` beside it changes nothing. -/
theorem runCycle_op {s : State} {e : EvtWord} {i : Instr} (h : selectEvt s.fsm s.cnt e = .op i) :
    runCycle e s = exec i s := by
  simp [runCycle, h]

/-- A cycle that selects `EVAL` judges the frame in the buffer. -/
theorem runCycle_eval {s : State} {e : EvtWord} {w : FrameWord} (h : evtRst e = false) (h1 : s.fsm = .reading)
    (h2 : s.cnt = 18) (hw : bufFrame s.buf = some w) : runCycle e s = .next (evalResult w s) := by
  have hs : selectEvt s.fsm s.cnt e = .eval := by rw [h1, h2]; exact selectEvt_eval h
  simp only [runCycle, hs, withFrame_some hw, runOps_monOps]
  exact runOps_evalOps h1 h2 hw

theorem runCycle_eval_fault {s : State} {e : EvtWord} (h : evtRst e = false) (h1 : s.fsm = .reading)
    (h2 : s.cnt = 18) (hw : bufFrame s.buf = none) : runCycle e s = .fault .emptyCell := by
  have hs : selectEvt s.fsm s.cnt e = .eval := by rw [h1, h2]; exact selectEvt_eval h
  simp only [runCycle, hs, withFrame_none hw]

/-- INVERSION of a cycle: if it answers a next state, one of these happened (R125). -/
theorem runCycle_cases {s t : State} {e : EvtWord} (h : runCycle e s = .next t) :
    (evtRst e = true ∧ t = resetBlock s) ∨
    (evtRst e = false ∧ s.fsm = .reading ∧ s.cnt = 18 ∧ ∃ w, bufFrame s.buf = some w ∧ t = evalResult w s) ∨
    (evtRst e = false ∧ s.fsm = .reading ∧ s.cnt < 18 ∧ evtRxValid e = true ∧
      t = setCnt (s.cnt + 1) (setBuf (bufWrite s.buf s.cnt (evtRxData e)) s)) ∨
    (evtRst e = false ∧ s.fsm = .recovering ∧ evtResume e = true ∧ t = returnFromRecovery s) ∨
    (evtRst e = false ∧ ¬ (s.fsm = .reading ∧ s.cnt = 18) ∧ ¬ (evtRxValid e = true ∧ s.fsm = .reading ∧ s.cnt < 18) ∧
      ¬ (evtResume e = true ∧ s.fsm = .recovering) ∧ t = s) := by
  rcases selectEvt_cases s.fsm s.cnt e with ⟨hr, hs⟩ | ⟨hr, hf, hn, _⟩ | ⟨hr, hf, hn, hv, hs⟩ | ⟨hr, hf, hv, hs⟩ |
    ⟨hr, h2, h3, h4, hs⟩
  · rw [runCycle_op hs] at h
    cases h
    exact .inl ⟨hr, rfl⟩
  · cases hw : bufFrame s.buf with
    | none => rw [runCycle_eval_fault hr hf hn hw] at h; cases h
    | some w =>
      rw [runCycle_eval hr hf hn hw] at h
      cases h
      exact .inr (.inl ⟨hr, hf, hn, w, rfl, rfl⟩)
  · rw [runCycle_op hs, exec_rxb_enabled _ hf hn] at h
    cases h
    exact .inr (.inr (.inl ⟨hr, hf, hn, hv, rfl⟩))
  · rw [runCycle_op hs] at h
    replace h : execResume s = .next t := h
    rw [execResume, if_pos hf] at h
    cases h
    exact .inr (.inr (.inr (.inl ⟨hr, hf, hv, rfl⟩)))
  · rw [runCycle_op hs] at h
    cases h
    exact .inr (.inr (.inr (.inr ⟨hr, h2, h3, h4, rfl⟩)))

theorem keyHeldBit_some {i : Nat} {m : BitVec 16} (h : i < 20) : ∃ b, keyHeldBit i m = some b := by
  unfold keyHeldBit
  split
  · exact ⟨_, rfl⟩
  · exact ⟨false, rfl⟩

theorem keyHeldBit_none {i : Nat} (m : BitVec 16) (h : 20 ≤ i) : keyHeldBit i m = none := by
  have h1 : ¬ i < 16 := by omega
  have h2 : ¬ i < 20 := by omega
  simp [keyHeldBit, h1, h2]

/-- A query that is answered drives its wire and does nothing else. -/
theorem exec_keyheld_next {i : Nat} {m : BitVec 16} {s t : State} (h : exec (.keyheld i m) s = .next t) :
    i < 20 ∧ ∃ f, t = drive f s := by
  by_cases hi : i < 20
  · obtain ⟨b, hb⟩ := keyHeldBit_some (m := m) hi
    have h' : execKeyheld i m s = .next t := h
    simp only [execKeyheld, hb] at h'
    cases h'
    exact ⟨hi, _, rfl⟩
  · have h' : execKeyheld i m s = .next t := h
    simp only [execKeyheld, keyHeldBit_none m (by omega : 20 ≤ i)] at h'
    cases h'

/-- INVERSION of a step: a query was answered, or a cycle ran. -/
theorem step_cases {s t : State} (h : step s = .next t) :
    (∃ i m, nextInput s = .query i m ∧ i < 20 ∧ ∃ f, t = drive f (beginStep s)) ∨
    (∃ e, nextInput s = .evt e ∧ runCycle e (beginStep s) = .next t) := by
  unfold step at h
  cases hx : nextInput s with
  | evt e => rw [hx] at h; exact .inr ⟨e, rfl, h⟩
  | query i m =>
    rw [hx] at h
    obtain ⟨hi, f, hf⟩ := exec_keyheld_next h
    exact .inl ⟨i, m, rfl, hi, f, hf⟩

/-- A step takes exactly the item presented off the list, whatever it does. -/
theorem step_input {s t : State} (h : step s = .next t) : t.input = s.input.tail := by
  rcases step_cases h with ⟨_, _, _, _, f, rfl⟩ | ⟨e, _, hc⟩
  · rfl
  · rcases runCycle_cases hc with ⟨_, rfl⟩ | ⟨_, _, _, w, _, rfl⟩ | ⟨_, _, _, _, rfl⟩ | ⟨_, _, _, rfl⟩ | ⟨_, _, _, _, rfl⟩ <;>
      try rfl
    unfold evalResult
    split <;> rfl

@[simp] theorem runSteps_zero (s : State) : runSteps 0 s = .next s := rfl

/-- A run of any machine goes on after a step that answers a next state. -/
theorem coreRun_next {M : Host.Core} {n : Nat} {s t : M.State} (h : M.step s = .next t) :
    M.run (n + 1) s = M.run n t := by rw [Host.Core.run, h]

theorem coreRun_fault {M : Host.Core} {n : Nat} {s : M.State} {r : M.Fault} (h : M.step s = .fault r) :
    M.run (n + 1) s = .fault r := by rw [Host.Core.run, h]

theorem coreRun_refused {M : Host.Core} {n : Nat} {s : M.State} {r : M.Refusal} (h : M.step s = .refused r) :
    M.run (n + 1) s = .refused r := by rw [Host.Core.run, h]

/-- A run is its first step, then the rest. -/
theorem runSteps_succ (n : Nat) (s : State) :
    runSteps (n + 1) s = match step s with
      | .next t => runSteps n t
      | .fault r => .fault r
      | .refused r => .refused r := by
  cases h : step s with
  | next t => exact coreRun_next (M := Sys2Proof.core) h
  | fault r => exact coreRun_fault (M := Sys2Proof.core) h
  | refused r => exact coreRun_refused (M := Sys2Proof.core) h

/-- A run goes on where its first step does. -/
theorem runSteps_next {n : Nat} {s t : State} (h : step s = .next t) : runSteps (n + 1) s = runSteps n t := by
  rw [runSteps_succ, h]

/-- A run goes on where its first part does. -/
theorem runSteps_add {m : Nat} {s t : State} (n : Nat) (h : runSteps m s = .next t) :
    runSteps (m + n) s = runSteps n t := by
  induction m generalizing s with
  | zero => cases h; rw [Nat.zero_add]
  | succ m ih =>
    rw [Nat.add_right_comm]
    rw [runSteps_succ] at h ⊢
    cases hs : step s with
    | next u => rw [hs] at h; exact ih h
    | fault r => rw [hs] at h; cases h
    | refused r => rw [hs] at h; cases h

theorem step_evt {s : State} {e : EvtWord} (h : nextInput s = .evt e) : step s = runCycle e (beginStep s) := by
  simp [step, h, runInput]

theorem step_query {s : State} {i : Nat} {m : BitVec 16} (h : nextInput s = .query i m) :
    step s = exec (.keyheld i m) (beginStep s) := by
  simp [step, h, runInput]

end Sys2Proof.Machine
end

