-- ==== Sys2Proof/Tests/Slice0.lean ====
section
/-! SUPPORT. The package's own tests: the check of ill-formed terms, decoding of words written out from the spec's encodings,
single operations and steps on the vectors of spec/95_test_vectors.md (T1 to T35, P5), and for each obligation with
hypotheses a witness that meets them. Frames are the spec's bytes, `B[0]` first. -/

namespace Sys2Proof.Tests

open Sys2Proof Sys2Proof.Machine

/-! ## Frames and small states -/

/-- T1, the centre frame. -/
def centre : List Byte := [0x00, 0x04, 0x20, 0x00, 0x01, 0x58, 0, 0, 0, 0, 0, 0, 0, 0, 0, 0, 0, 0]

/-- T2. -/
def frameT2 : List Byte :=
  [0x55, 0x55, 0x15, 0xA5, 0xD9, 0xB2, 0xFF, 0xFF, 0x00, 0x80, 0xFF, 0x7F, 0x01, 0xFF, 0x01, 0x80, 0xEF, 0xBE]

/-- T3. -/
def frameT3 : List Byte :=
  [0x6C, 0xA1, 0x34, 0xFA, 0xB8, 0x6B, 0xFE, 0xFF, 0x2C, 0x01, 0xD4, 0xFE, 0x00, 0x01, 0x30, 0x00, 0x34, 0x12]

/-- T4, all zero. -/
def zeros : List Byte := List.replicate 18 0x00

/-- T5, all ones. -/
def ones : List Byte := List.replicate 18 0xFF

/-- T15, third row: every cause at once. -/
def allBad : List Byte := [0x00, 0xF8, 0xFF, 0x5A, 0x2A, 0x0D] ++ List.replicate 12 0x00

/-- T16: all gated fields at a boundary of acceptance, all others at an extreme. -/
def frameT16 : List Byte :=
  [0x6C, 0xA1, 0x34, 0x5B, 0x28, 0xFD, 0x00, 0x80, 0xFF, 0x7F] ++ List.replicate 8 0xFF

/-- `(READING, 18)` with a frame in the buffer and words to come. -/
def full (bs : List Byte) (inp : List Input) : State :=
  { State.reset with cnt := 18, buf := bufFrom 0 bs, input := inp }

/-- `(READING, n)` with nothing in the buffer. -/
def reading (n : Nat) (inp : List Input) : State := { State.reset with cnt := n, input := inp }

/-- `(RECOVERING, 0)`. -/
def recovering (inp : List Input) : State := { State.reset with fsm := .recovering, input := inp }

/-- A fact about the state that a result answers, false where it stops. -/
def after (r : Result) (p : State → Bool) : Bool :=
  match r with
  | .next t => p t
  | .fault _ => false
  | .refused _ => false

theorem next_of_after {r : Result} {p : State → Bool} (h : after r p = true) : ∃ t, r = .next t ∧ p t = true := by
  cases r with
  | next t => exact ⟨t, rfl, h⟩
  | fault _ => cases h
  | refused _ => cases h

/-- T1's decode, from the spec's list. -/
def centreView : DecodedFrame :=
  { chRX := 1024, chRY := 1024, chLX := 1024, chLY := 1024, swR := 1, swL := 1, mouseX := 0, mouseY := 0, mouseZ := 0
    mousePressL := 0, mousePressR := 0, keyMask := 0, reserved := 0 }

/-- T3's decode, from the spec's list. -/
def viewT3 : DecodedFrame :=
  { chRX := 364, chRY := 1684, chLX := 1000, chLY := 1500, swR := 2, swL := 1, mouseX := -2, mouseY := 300
    mouseZ := -300, mousePressL := 0, mousePressR := 1, keyMask := 0x0030, reserved := 0x1234 }

/-! ## WellFormed: each check has a term it refuses -/

/-- T19: `KEYHELD(20)` has no result. -/
theorem test_wellFormed_refuses_keyheld_20 : (Instr.keyheld 20 0xFFFF).wellFormed = false := by decide

theorem test_wellFormed_takes_keyheld_19 : (Instr.keyheld 19 0xFFFF).wellFormed = true := by decide

/-! ## Decode: words written out from R69, R72 and T32 -/

/-- `1000 0000 0000`, in any state. -/
theorem test_decode_rst : decode .reading 7 [0x00, 0x08] = .ok [.rst] := by decide

/-- `0001 0110 1011` in the three states of T32. -/
theorem test_decode_rxb :
    decode .reading 0 [0x6B, 0x01] = .ok [.rxb 0x6B] ∧
    decode .reading 18 [0x6B, 0x01] = .ok [.evalAccept, .evalReject] ∧
    decode .recovering 0 [0x6B, 0x01] = .ok [.idle] := by decide

/-- `0010 0000 0000`. -/
theorem test_decode_resume :
    decode .recovering 0 [0x00, 0x02] = .ok [.resume] ∧ decode .reading 3 [0x00, 0x02] = .ok [.idle] := by decide

/-- `0100 0000 0000`: `MON` with `IDLE`, or with `EVAL`. -/
theorem test_decode_mon :
    decode .recovering 0 [0x00, 0x04] = .ok [.mon, .idle] ∧
    decode .reading 18 [0x00, 0x04] = .ok [.mon, .evalAccept, .evalReject] := by decide

/-- `0000 0110 1011`: `rx_valid` is 0. -/
theorem test_decode_idle : decode .reading 3 [0x6B, 0x00] = .ok [.idle] := by decide

/-- `0011 0101 0101`: in `READING` the byte, in `RECOVERING` the return. -/
theorem test_decode_byte_and_resume :
    decode .reading 3 [0x55, 0x03] = .ok [.rxb 0x55] ∧ decode .recovering 0 [0x55, 0x03] = .ok [.resume] := by decide

/-- The centre frame's word `2^10 + 2^21 + 2^32 + 2^43 + 2^44 + 2^46` selects every FRAME144 row. -/
theorem test_decode_frame : decode .reading 0 centre =
    .ok [.unpkChrx 0x580100200400, .unpkChry 0x580100200400, .unpkChlx 0x580100200400, .unpkChly 0x580100200400,
      .unpkSwr 0x580100200400, .unpkSwl 0x580100200400, .unpkMx 0x580100200400, .unpkMy 0x580100200400,
      .unpkMz 0x580100200400, .unpkMpl 0x580100200400, .unpkMpr 0x580100200400, .unpkKey 0x580100200400,
      .unpkRes 0x580100200400, .unpack 0x580100200400, .chkRx 0x580100200400, .chkRy 0x580100200400,
      .chkLx 0x580100200400, .chkLy 0x580100200400, .chkSwr 0x580100200400, .chkSwl 0x580100200400,
      .corrupt 0x580100200400] := by decide

/-- A query image: index 19, mask 0x0030; index 20 is refused. -/
theorem test_decode_keyheld :
    decode .reading 0 [0x13, 0x30, 0x00] = .ok [.keyheld 19 0x0030] ∧
    decode .reading 0 [0x14, 0x30, 0x00] = .error .keyIndexUndefined := by decide

/-- Bytes of no format. -/
theorem test_decode_rejects_by_name :
    decode .reading 0 [] = .error (.noSuchLength 0) ∧ decode .reading 0 (zeros ++ [0]) = .error (.noSuchLength 19) ∧
    decode .reading 0 [0x00, 0x10] = .error .evtTooWide := by decide

/-- The encoder's words for the EVT12 rows (R72). -/
theorem test_encode_words :
    encode .rst = [0x00, 0x08] ∧ encode .mon = [0x00, 0x04] ∧ encode .resume = [0x00, 0x02] ∧
    encode (.rxb 0x6B) = [0x6B, 0x01] ∧ encode .idle = [0x00, 0x00] := by decide

/-- The interface's row for a table word. -/
theorem test_decodeTableWord :
    decodeTableWord 12 0x800 = some .rst ∧ decodeTableWord 12 0x400 = some .mon ∧
    decodeTableWord 12 0x200 = some .resume ∧ decodeTableWord 16 0x16B = some (.rxb 0x6B) ∧
    decodeTableWord 16 0x000 = some .idle ∧ decodeTableWord 144 0x580100200400 = some (.unpack 0x580100200400) ∧
    decodeTableWord 16 0x1000 = none := by decide

/-! ## The unpack family -/

/-- T2. -/
theorem test_unpack_T2 : unpackFrame (frameOf frameT2) =
    { chRX := 1365, chRY := 682, chLX := 1684, chLY := 364, swR := 3, swL := 2, mouseX := -1, mouseY := -32768
      mouseZ := 32767, mousePressL := 1, mousePressR := 255, keyMask := 0x8001, reserved := 0xBEEF } := by decide

/-- T3 and its packing, T20. -/
theorem test_unpack_and_pack_T3 : unpackFrame (frameOf frameT3) = viewT3 ∧ packFrame viewT3 = frameT3 := by decide

/-- T20's `u16` steps, as the mouse buses of R70 carry them. -/
theorem test_pub_mouse_bus_T20 :
    pubMouseBus (-2) = 0xFFFE ∧ pubMouseBus 300 = 0x012C ∧ pubMouseBus (-300) = 0xFED4 := by decide

/-- T7: the upper bits of a shared byte do not leak. -/
theorem test_unpack_T7 :
    (unpackFrame (frameOf ([0x00, 0xF8] ++ List.replicate 16 0))).chRX = 0 ∧
    (unpackFrame (frameOf ([0x00, 0xF8] ++ List.replicate 16 0))).chRY = 31 ∧
    (unpackFrame (frameOf ([0x00, 0x00, 0xC0] ++ List.replicate 15 0))).chRY = 0 ∧
    (unpackFrame (frameOf ([0x00, 0x00, 0xC0] ++ List.replicate 15 0))).chLX = 3 ∧
    (unpackFrame (frameOf ([0, 0, 0, 0, 0, 0x0F] ++ List.replicate 12 0))).chLY = 1920 := by decide

/-- T6, four rows: `W[32]`, `W[43]`, `W[63]`, `W[143]`. -/
theorem test_unpack_T6 :
    fieldChLX (BitVec.ofNat 144 (2 ^ 32)) = 1024 ∧ fieldChLY (BitVec.ofNat 144 (2 ^ 43)) = 1024 ∧
    fieldMouseX (BitVec.ofNat 144 (2 ^ 63)) = -32768 ∧ fieldReserved (BitVec.ofNat 144 (2 ^ 143)) = 0x8000 := by decide

/-- The wire of each extraction on T2, by `exec`. -/
theorem test_exec_channels_T2 :
    after (exec (.unpkChrx (frameOf frameT2)) State.reset) (fun t => t.wires.chRX == some 1365) = true ∧
    after (exec (.unpkChry (frameOf frameT2)) State.reset) (fun t => t.wires.chRY == some 682) = true ∧
    after (exec (.unpkChlx (frameOf frameT2)) State.reset) (fun t => t.wires.chLX == some 1684) = true ∧
    after (exec (.unpkChly (frameOf frameT2)) State.reset) (fun t => t.wires.chLY == some 364) = true := by decide

theorem test_exec_switches_and_mouse_T2 :
    after (exec (.unpkSwr (frameOf frameT2)) State.reset) (fun t => t.wires.swR == some 3) = true ∧
    after (exec (.unpkSwl (frameOf frameT2)) State.reset) (fun t => t.wires.swL == some 2) = true ∧
    after (exec (.unpkMx (frameOf frameT2)) State.reset) (fun t => t.wires.mouseX == some (-1)) = true ∧
    after (exec (.unpkMy (frameOf frameT2)) State.reset) (fun t => t.wires.mouseY == some (-32768)) = true ∧
    after (exec (.unpkMz (frameOf frameT2)) State.reset) (fun t => t.wires.mouseZ == some 32767) = true := by decide

theorem test_exec_buttons_keys_reserved_T2 :
    after (exec (.unpkMpl (frameOf frameT2)) State.reset) (fun t => t.wires.mousePressL == some 1) = true ∧
    after (exec (.unpkMpr (frameOf frameT2)) State.reset) (fun t => t.wires.mousePressR == some 255) = true ∧
    after (exec (.unpkKey (frameOf frameT2)) State.reset) (fun t => t.wires.keyMask == some 0x8001) = true ∧
    after (exec (.unpkRes (frameOf frameT2)) State.reset) (fun t => t.wires.reserved == some 0xBEEF) = true := by decide

/-- T4: `UNPACK` returns a value for a frame the gate rejects. -/
theorem test_exec_unpack_T4 :
    after (exec (.unpack (frameOf zeros)) State.reset) (fun t => t.wires.decoded ==
      some { chRX := 0, chRY := 0, chLX := 0, chLY := 0, swR := 0, swL := 0, mouseX := 0, mouseY := 0, mouseZ := 0
             mousePressL := 0, mousePressR := 0, keyMask := 0, reserved := 0 }) = true := by decide

/-- T18, T19. -/
theorem test_keyheld_T18_T19 :
    keyHeldBit 15 0xFFFF = some true ∧ keyHeldBit 16 0xFFFF = some false ∧ keyHeldBit 19 0xFFFF = some false ∧
    keyHeldBit 20 0xFFFF = none ∧ keyHeldBit 20 0x0000 = none := by decide

/-- R94's example, by `exec`: `key_mask = 0x0030`. -/
theorem test_exec_keyheld :
    after (exec (.keyheld 4 0x0030) State.reset) (fun t => t.wires.keyHeld == some true) = true ∧
    after (exec (.keyheld 0 0x0030) State.reset) (fun t => t.wires.keyHeld == some false) = true ∧
    exec (.keyheld 20 0x0030) State.reset = .refused .keyIndexUndefined := ⟨by decide, by decide, rfl⟩

/-! ## The validate family -/

/-- T10 to T13, the two sides of each bound: `bad` of one channel. -/
theorem test_checks_T10_T13 :
    badRx (frameOf ([0x6B, 0x01, 0x20, 0x00, 0x01, 0x58] ++ List.replicate 12 0)) = true ∧
    badRx (frameOf ([0x6C, 0x01, 0x20, 0x00, 0x01, 0x58] ++ List.replicate 12 0)) = false ∧
    badRy (frameOf ([0x00, 0xA4, 0x34, 0x00, 0x01, 0x58] ++ List.replicate 12 0)) = false ∧
    badRy (frameOf ([0x00, 0xAC, 0x34, 0x00, 0x01, 0x58] ++ List.replicate 12 0)) = true ∧
    badLx (frameOf ([0x00, 0x04, 0xE0, 0x5A, 0x00, 0x58] ++ List.replicate 12 0)) = true ∧
    badLx (frameOf ([0x00, 0x04, 0x20, 0xA5, 0x01, 0x58] ++ List.replicate 12 0)) = false ∧
    badLy (frameOf ([0x00, 0x04, 0x20, 0x00, 0xD9, 0x52] ++ List.replicate 12 0)) = false ∧
    badLy (frameOf ([0x00, 0x04, 0x20, 0x00, 0x2B, 0x5D] ++ List.replicate 12 0)) = true := by decide

/-- T15's cause vectors, T4, T5, T16. -/
theorem test_cause_vectors :
    causeVector (frameOf ([0x6B, 0x01, 0x20, 0x00, 0x01, 0x18] ++ List.replicate 12 0)) = 0b100001 ∧
    causeVector (frameOf ([0x00, 0xAC, 0x34, 0x00, 0x01, 0x40] ++ List.replicate 12 0)) = 0b011010 ∧
    causeVector (frameOf allBad) = 0b111111 ∧ causeVector (frameOf zeros) = 0b111111 ∧
    causeVector (frameOf ones) = 0b001111 ∧ causeVector (frameOf frameT16) = 0 := by decide

/-- The wires of the checks on T15's second row, `bad = 011010`, by `exec`. -/
theorem test_exec_checks_T15 :
    let w := frameOf ([0x00, 0xAC, 0x34, 0x00, 0x01, 0x40] ++ List.replicate 12 0)
    after (exec (.chkRx w) State.reset) (fun t => t.wires.badRx == some false) = true ∧
    after (exec (.chkRy w) State.reset) (fun t => t.wires.badRy == some true) = true ∧
    after (exec (.chkLx w) State.reset) (fun t => t.wires.badLx == some false) = true ∧
    after (exec (.chkLy w) State.reset) (fun t => t.wires.badLy == some true) = true ∧
    after (exec (.chkSwr w) State.reset) (fun t => t.wires.badSwr == some true) = true ∧
    after (exec (.chkSwl w) State.reset) (fun t => t.wires.badSwl == some false) = true ∧
    after (exec (.corrupt w) State.reset) (fun t => t.wires.corrupt == some true) = true := by decide

/-- T34, T35: constant streams. -/
theorem test_corrupt_constant_streams :
    corruptFrame (frameOf (List.replicate 18 0x55)) = false ∧ corruptFrame (frameOf (List.replicate 18 0xAA)) = false ∧
    corruptFrame (frameOf (List.replicate 18 0x54)) = true := by decide

/-! ## The sequencer, recovery, reset -/

/-- T24, its third byte: `buf[2]`, `cnt` 3, `buf[3]` no value. -/
theorem test_step_rxb_T24 :
    after (step { State.reset with cnt := 2, buf := [(0, 0x11), (1, 0x22)], input := [wordRxb 0x33] }) (fun t =>
      t.cnt == 3 && t.buf == [(0, 0x11), (1, 0x22), (2, 0x33)] && t.view == none && t.trace == []) = true := by decide

/-- T26: `EVAL` of the centre frame; P1's wires. -/
theorem test_step_eval_accept_T26 :
    after (step (full centre [wordNone])) (fun t =>
      t.fsm == .reading && t.cnt == 0 && t.view == some centreView && t.trace == [.pub centreView] &&
        t.buf == bufFrom 0 centre && pubValid t && !t.wires.resyncReq) = true := by decide

/-- P5: `MON` with `EVAL` of the all-ones frame rejects. -/
theorem test_step_eval_reject_P5 :
    after (step (full ones [wordMon])) (fun t =>
      t.fsm == .recovering && t.cnt == 0 && t.view == none && t.trace == [.resync] && t.buf == bufFrom 0 ones &&
        !pubValid t && t.wires.resyncReq && t.wires.decoded == none) = true := by decide

/-- T27: a byte offered in recovery is not taken. -/
theorem test_step_byte_in_recovery_T27 :
    after (step (recovering [wordRxb 0x55])) (fun t => t == recovering []) = true := by decide

/-- T28: `RESUME` in both states. -/
theorem test_step_resume_T28 :
    after (step (reading 5 [wordResume])) (fun t => t == reading 5 []) = true ∧
    after (step (recovering [wordResume])) (fun t => t == reading 0 []) = true := by decide

/-- T29: `MON` alone. -/
theorem test_step_mon_T29 : after (step (recovering [wordMon])) (fun t => t == recovering []) = true := by decide

/-- T32: word 0x000 at `(READING, 3)`. -/
theorem test_step_idle_T32 : after (step (reading 3 [wordNone])) (fun t => t == reading 3 []) = true := by decide

/-- T30, T31: `RST` in mid-frame, and before `EVAL`. -/
theorem test_step_rst_T30_T31 :
    after (step { reading 7 [wordRst] with view := some centreView, trace := [.pub centreView, .pub centreView] })
      (fun t => t == State.reset) = true ∧
    after (step (full centre [wordRst])) (fun t => t == State.reset) = true := by decide

/-- R71: `SEND` and `FLOOD` as words; P1's first and last. -/
theorem test_scripts :
    (scriptSend centre).take 3 = [.evt 0x100, .evt 0x104, .evt 0x120] ∧
    (scriptSend centre).drop 18 = [.evt 0x000] ∧ (scriptFlood 54 0x55).length = 57 ∧
    (scriptFlood 54 0x55)[18]? = some (.evt 0x000) := by decide

/-! ## Witnesses: every obligation with hypotheses has a state and operands that meet them -/

theorem inv_full (bs : List Byte) (inp : List Input) (hw : (bufFrom 0 bs).wf)
    (h : ∀ a : Fin 18, (bufRead (bufFrom 0 bs) a.val).isSome = true) : Inv (full bs inp) where
  cnt_le := Nat.le_refl 18
  recovering := by intro h; cases h
  buf_wf := hw
  written := fun a ha => Option.isSome_iff_exists.mp (h ⟨a, ha⟩)
  view_ok := by intro d h; cases h
  trace_ok := by intro d h; cases h

theorem inv_start (f : Fsm) (inp : List Input) : Inv { State.reset with fsm := f, input := inp } where
  cnt_le := Nat.zero_le 18
  recovering := fun _ => rfl
  buf_wf := (show Memory.wf [] by decide)
  written := by intro a h; cases h
  view_ok := by intro d h; cases h
  trace_ok := by intro d h; cases h

theorem witness_EveryStepKeepsTheInvariant :
    Inv (full centre [wordNone]) ∧ ∃ t, step (full centre [wordNone]) = .next t :=
  ⟨inv_full _ _ (by decide) (by decide), (next_of_after test_step_eval_accept_T26).imp fun _ h => h.1⟩

theorem witness_NoStepFromTheInvariantStops :
    (Inv (full zeros [wordNone]) ∧ Input.Defined (nextInput (full zeros [wordNone]))) ∧
    (Inv (recovering [.query 19 0]) ∧ Input.Defined (nextInput (recovering [.query 19 0]))) ∧
    (Inv (recovering [.query 20 0]) ∧ ¬ Input.Defined (nextInput (recovering [.query 20 0]))) :=
  ⟨⟨inv_full _ _ (by decide) (by decide), trivial⟩, ⟨inv_start _ _, (show (19 : Nat) < 20 by decide)⟩,
    ⟨inv_start _ _, (show ¬ (20 : Nat) < 20 by decide)⟩⟩

theorem witness_RunsNeverStop :
    Inv (recovering [wordResume, .query 19 0xFFFF]) ∧
      ∀ x ∈ (recovering [wordResume, .query 19 0xFFFF]).input, Input.Defined x := by
  refine ⟨inv_start _ _, fun x hx => ?_⟩
  rcases List.mem_cons.mp hx with rfl | hx
  · exact trivial
  · rw [List.mem_singleton.mp hx]; exact (show (19 : Nat) < 20 by decide)

theorem witness_UnpackAndPackAreInverse : frameT2.length = 18 ∧ viewT3.InRange := by decide

theorem witness_RoundTripStabilityAndSingleKey : (15 : Nat) < 16 ∧ (19 : Nat) < 20 := by decide

theorem witness_KeyheldOverItsWholeDomain :
    (15 : Nat) ≤ 15 ∧ ((16 : Nat) ≤ 16 ∧ (16 : Nat) ≤ 19) ∧ ((16 : Nat) ≤ 19 ∧ (19 : Nat) ≤ 19) ∧ (20 : Nat) ≤ 20 := by decide

theorem witness_KeyIsFrameBit :
    Key.w ∈ [Key.w, .s, .a, .d, .shift, .ctrl, .q, .e, .r, .f, .g, .z, .x, .c, .v, .b] ∧
    Key.b ∈ [Key.w, .s, .a, .d, .shift, .ctrl, .q, .e, .r, .f, .g, .z, .x, .c, .v, .b] := by decide

theorem witness_FrameOperationsArePure :
    (Instr.unpkChrx (frameOf zeros)).format = .frame144 ∧ (Instr.corrupt (frameOf ones)).format = .frame144 := by decide

theorem witness_GateReadsTheFirstSixBytesOnly :
    let B : Vector Byte 18 := #v[0x00, 0x04, 0x20, 0x00, 0x01, 0x58, 0, 0, 0, 0, 0, 0, 0, 0, 0, 0, 0, 0]
    let C : Vector Byte 18 := #v[0x00, 0x04, 0x20, 0x00, 0x01, 0x58, 1, 2, 3, 4, 5, 6, 7, 8, 9, 10, 11, 12]
    ∀ i : Fin 6, B[i.val]'(by omega) = C[i.val]'(by omega) := by decide

theorem witness_CheckOrderIsImmaterial :
    let w := frameOf allBad
    let l : List Instr := [.chkSwl w, .chkSwr w, .chkLy w, .chkLx w, .chkRy w, .chkRx w]
    l.Perm [.chkRx w, .chkRy w, .chkLx w, .chkLy w, .chkSwr w, .chkSwl w] :=
  List.reverse_perm ([.chkRx (frameOf allBad), .chkRy _, .chkLx _, .chkLy _, .chkSwr _, .chkSwl _] : List Instr)

theorem witness_RxbStoresAtCntAndAdvances :
    ((reading 0 []).fsm = .reading ∧ (reading 0 []).cnt < 18) ∧
    ((reading 17 []).fsm = .reading ∧ (reading 17 []).cnt < 18) := by decide

theorem witness_NotEnabledMeansIgnored :
    ¬ ((recovering []).fsm = .reading ∧ (recovering []).cnt < 18) ∧
    ¬ ((full zeros []).fsm = .reading ∧ (full zeros []).cnt < 18) ∧
    (reading 5 []).fsm ≠ .recovering ∧
    ¬ ((reading 17 []).fsm = .reading ∧ (reading 17 []).cnt = 18) ∧
    (bufFrame (full zeros []).buf = some (frameOf zeros) ∧ corruptFrame (frameOf zeros) = true) ∧
    (bufFrame (full centre []).buf = some (frameOf centre) ∧ corruptFrame (frameOf centre) = false) := by decide

theorem witness_EvalAcceptPublishesTheDecode :
    let s := full frameT16 []
    s.fsm = .reading ∧ s.cnt = 18 ∧ bufFrame s.buf = some (frameOf frameT16) ∧
      corruptFrame (frameOf frameT16) = false := by decide

theorem witness_EvalRejectTakesFrameCorrupt :
    let s := full allBad []
    s.fsm = .reading ∧ s.cnt = 18 ∧ bufFrame s.buf = some (frameOf allBad) ∧
      corruptFrame (frameOf allBad) = true := by decide

theorem witness_ResumeReturnsToReading : (recovering []).fsm = .recovering := by decide

theorem witness_WaitingKeepsEverything :
    (nextInput (reading 17 [wordResume]) = .evt 0x200 ∧ evtRst 0x200 = false ∧ (reading 17 []).fsm = .reading ∧
      (reading 17 []).cnt < 18 ∧ evtRxValid 0x200 = false) ∧
    (nextInput (recovering [wordRxb 0xFF]) = .evt 0x1FF ∧ evtRst 0x1FF = false ∧ (recovering []).fsm = .recovering ∧
      evtResume 0x1FF = false) := by decide

theorem witness_RstGivesTheResetState :
    (nextInput (recovering [wordRst]) = .evt 0x800 ∧ 0x800 ≤ (0x800 : EvtWord).toNat) ∧
    (nextInput (full centre [.evt 0xFFF]) = .evt 0xFFF ∧ 0x800 ≤ (0xFFF : EvtWord).toNat) := by decide

theorem witness_EmptyCellStopsEval :
    let s : State := { full centre [] with buf := (full centre []).buf.take 17 }
    s.fsm = .reading ∧ s.cnt = 18 ∧ (17 : Nat) < 18 ∧ bufRead s.buf 17 = none := by decide

theorem witness_StepRunsTheSelectedOperation :
    (nextInput (reading 17 [wordRxb 0xFF]) = .evt 0x1FF ∧
      selectEvt (reading 17 []).fsm (reading 17 []).cnt 0x1FF = .op (.rxb 0xFF)) ∧
    nextInput (reading 17 [.query 20 1]) = .query 20 1 := by decide

theorem witness_StepAtACompleteFrameIsEval :
    (nextInput (full zeros [.evt 0x7FF]) = .evt 0x7FF ∧ evtRst 0x7FF = false ∧
      bufFrame (full zeros []).buf = some (frameOf zeros) ∧ corruptFrame (frameOf zeros) = true) ∧
    (nextInput (full centre []) = .evt 0 ∧ evtRst 0 = false ∧
      bufFrame (full centre []).buf = some (frameOf centre) ∧ corruptFrame (frameOf centre) = false) := by decide

theorem witness_DecodeOfEncodeGivesTheInstruction :
    (Instr.keyheld 19 0x8001).wellFormed = true ∧ (Instr.rxb 0xFF).wellFormed = true ∧
    (Instr.unpkRes (frameOf ones)).wellFormed = true ∧ Instr.evalReject.wellFormed = true := by decide

theorem witness_EveryFrameSelectsTheFrameOperations : zeros.length = 18 ∧ ones.length = 18 := by decide

theorem witness_PlacedWordRunsNext :
    ((0x1FF : Nat) < 2 ^ 12 ∧ decodeTableWord 16 0x1FF = some (.rxb 0xFF)) ∧
    ((0x200 : Nat) < 2 ^ 12 ∧ decodeTableWord 16 0x200 = some .resume) ∧
    ((0xFFF : Nat) < 2 ^ 12 ∧ decodeTableWord 16 0xFFF = some .rst) := by decide

theorem witness_BufferIsLittleEndian :
    bufFrame (bufFrom 0 frameT2) = some (frameOf frameT2) ∧ (143 : Nat) < 144 ∧ (16 : Nat) + 2 ≤ 18 := by decide

theorem witness_OnlyRxbWritesTheBuffer :
    (∃ t, step (reading 17 [wordRxb 0xFF]) = .next t ∧ bufRead t.buf 17 ≠ bufRead (reading 17 []).buf 17) ∧
    (∃ t, step (full centre [wordRst]) = .next t ∧ bufRead t.buf 0 ≠ bufRead (full centre []).buf 0) := by
  constructor
  · obtain ⟨t, ht, hp⟩ := next_of_after (p := fun t => decide (bufRead t.buf 17 = some 0xFF))
      (show after (step (reading 17 [wordRxb 0xFF])) _ = true by decide)
    exact ⟨t, ht, by rw [of_decide_eq_true hp]; decide⟩
  · exact ⟨_, rfl, by decide⟩

theorem witness_OnlyEvalAcceptWritesTheView :
    (∃ t, step (full centre []) = .next t ∧ t.view ≠ (full centre []).view) ∧
    (∃ t, step { reading 7 [wordRst] with view := some centreView } = .next t ∧ t.view ≠ some centreView) := by
  constructor
  · obtain ⟨t, ht, hp⟩ := next_of_after (p := fun t => decide (t.view = some centreView))
      (show after (step (full centre [])) _ = true by decide)
    exact ⟨t, ht, by rw [of_decide_eq_true hp]; decide⟩
  · exact ⟨_, rfl, by decide⟩

theorem witness_TraceGrowsByOneAtEachEval :
    (∃ t, nextInput (full zeros []) = .evt 0 ∧ evtRst 0 = false ∧ step (full zeros []) = .next t ∧
      (full zeros []).fsm = .reading ∧ (full zeros []).cnt = 18) ∧
    (∃ t, nextInput (reading 17 [wordRxb 1]) = .evt 0x101 ∧ evtRst 0x101 = false ∧
      step (reading 17 [wordRxb 1]) = .next t ∧ ¬ (reading 17 []).cnt = 18) ∧
    (∃ t, nextInput (full zeros [.query 19 1]) = .query 19 1 ∧ step (full zeros [.query 19 1]) = .next t) := by
  refine ⟨?_, ?_, ⟨_, rfl, rfl⟩⟩
  · obtain ⟨t, ht, _⟩ := next_of_after (p := fun _ => true) (show after (step (full zeros [])) _ = true by decide)
    exact ⟨t, rfl, by decide, ht, rfl, rfl⟩
  · obtain ⟨t, ht, _⟩ := next_of_after (p := fun _ => true)
      (show after (step (reading 17 [wordRxb 1])) _ = true by decide)
    exact ⟨t, by decide, by decide, ht, by decide⟩

theorem witness_OutputWiresFollowTheEvents :
    (∃ t, step (full centre []) = .next t ∧ t.trace = (full centre []).trace ++ [.pub centreView]) ∧
    (∃ t, step (full zeros []) = .next t ∧ t.trace = (full zeros []).trace ++ [.resync]) := by
  constructor
  · obtain ⟨t, ht, hp⟩ := next_of_after (p := fun t => decide (t.trace = [.pub centreView]))
      (show after (step (full centre [])) _ = true by decide)
    exact ⟨t, ht, of_decide_eq_true hp⟩
  · obtain ⟨t, ht, hp⟩ := next_of_after (p := fun t => decide (t.trace = [.resync]))
      (show after (step (full zeros [])) _ = true by decide)
    exact ⟨t, ht, of_decide_eq_true hp⟩

theorem witness_NothingIsPublishedPastTheGate :
    (∃ t new, step (full centre []) = .next t ∧ t.trace = (full centre []).trace ++ new ∧ .pub centreView ∈ new) ∧
    (nextInput (full frameT16 []) = .evt 0 ∧ evtRst 0 = false ∧ (full frameT16 []).fsm = .reading ∧
      (full frameT16 []).cnt = 18 ∧ bufFrame (full frameT16 []).buf = some (frameOf frameT16) ∧
      corruptFrame (frameOf frameT16) = false) :=
  ⟨witness_OutputWiresFollowTheEvents.1.imp fun _ h => ⟨_, h.1, h.2, List.mem_singleton.mpr rfl⟩, by decide⟩

theorem witness_RecoveryEndsOnlyByResumeOrRst :
    (∃ t, nextInput (recovering [wordRst]) = .evt 0x800 ∧ step (recovering [wordRst]) = .next t) ∧
    (∃ t, nextInput (recovering [.evt 0x355]) = .evt 0x355 ∧ step (recovering [.evt 0x355]) = .next t) := by
  refine ⟨⟨_, rfl, rfl⟩, ?_⟩
  obtain ⟨t, ht, _⟩ := next_of_after (p := fun _ => true)
    (show after (step (recovering [.evt 0x355])) _ = true by decide)
  exact ⟨t, rfl, ht⟩

theorem witness_WiresAreNeverRead :
    let s := full centre []
    let t := { s with wires := { s.wires with resyncReq := true } }
    s ≠ t ∧ SameBlock s t := by
  exact ⟨by decide, rfl, rfl, rfl, rfl, rfl, rfl⟩

theorem witness_OldContentsAreUnobservable :
    let s : State := { State.reset with cnt := 1, buf := [(0, 0x11), (1, 0x22)], view := some centreView }
    let t : State := { State.reset with cnt := 1, buf := [(0, 0x11), (17, 0x33)] }
    s ≠ t ∧ SameButOldContents s t := by
  refine ⟨by decide, rfl, rfl, rfl, rfl, fun a ha => ?_⟩
  have h : a = 0 := by simpa using ha
  rw [h]; decide

theorem witness_OneIterationJudgesOneFrame :
    let s := { State.reset with buf := bufFrom 0 ones, input := scriptSend centre ++ [wordMon] }
    s.fsm = .reading ∧ s.cnt = 0 ∧ (centre.length = 18 ∧ corruptFrame (frameOf centre) = false) ∧
      (allBad.length = 18 ∧ corruptFrame (frameOf allBad) = true) ∧ s.input = scriptSend centre ++ [wordMon] := by
  refine ⟨rfl, rfl, by decide, by decide, rfl⟩

theorem witness_CorruptedFramesGiveOnlyResyncs :
    let frames := [zeros, ones, allBad]
    let s := { State.reset with input := frames.flatMap scriptSendr }
    s.fsm = .reading ∧ s.cnt = 0 ∧ s.trace = [] ∧
      (∀ bs ∈ frames, bs.length = 18 ∧ corruptFrame (frameOf bs) = true) ∧ s.input = frames.flatMap scriptSendr :=
  ⟨rfl, rfl, rfl, by decide, rfl⟩

/-- The second clause, with no frame before the last and with one. -/
theorem witness_CorruptedFramesGiveOnlyResyncs_lastInRecovery :
    (let s := { State.reset with input := scriptSend zeros }
     s.fsm = .reading ∧ s.cnt = 0 ∧ s.trace = [] ∧
      (∀ bs ∈ [] ++ [zeros], bs.length = 18 ∧ corruptFrame (frameOf bs) = true) ∧
      s.input = ([] : List (List Byte)).flatMap scriptSendr ++ scriptSend zeros) ∧
    (let s := { State.reset with input := [ones].flatMap scriptSendr ++ scriptSend allBad }
     s.fsm = .reading ∧ s.cnt = 0 ∧ s.trace = [] ∧
      (∀ bs ∈ [ones] ++ [allBad], bs.length = 18 ∧ corruptFrame (frameOf bs) = true) ∧
      s.input = [ones].flatMap scriptSendr ++ scriptSend allBad) :=
  ⟨⟨rfl, rfl, rfl, by decide, rfl⟩, ⟨rfl, rfl, rfl, by decide, rfl⟩⟩

theorem witness_CorruptedThenValidPublishesTheValid :
    let s := { State.reset with input := scriptSendr ones ++ scriptSend frameT3 }
    s.fsm = .reading ∧ s.cnt = 0 ∧ s.trace = [] ∧ ones.length = 18 ∧ frameT3.length = 18 ∧
      corruptFrame (frameOf ones) = true ∧ corruptFrame (frameOf frameT3) = false ∧
      s.input = scriptSendr ones ++ scriptSend frameT3 :=
  ⟨rfl, rfl, rfl, by decide, by decide, by decide, by decide, rfl⟩

theorem witness_EventCountsMatchTheSteps :
    ∃ t, runSteps 3 { State.reset with input := [wordRxb 0x11, wordMon, wordRst] } = .next t := by
  obtain ⟨t, ht, _⟩ := next_of_after (p := fun _ => true)
    (show after (runSteps 3 { State.reset with input := [wordRxb 0x11, wordMon, wordRst] }) _ = true by decide)
  exact ⟨t, ht⟩

theorem witness_EveryStepKeepsTheEventCounts :
    CountsMatch (full centre []) { rxbs := 18 } ∧ (∃ t, step (full centre []) = .next t) ∧
    CountsMatch { recovering [wordResume] with trace := [.resync] } { rxbs := 18, evals := 1 } ∧
    (∃ t, step { recovering [wordResume] with trace := [.resync] } = .next t) :=
  ⟨⟨rfl, rfl, rfl⟩, witness_OutputWiresFollowTheEvents.1.imp fun _ h => h.1, ⟨rfl, rfl, rfl⟩, ⟨_, rfl⟩⟩

theorem witness_PresentedItemsAreTakenOneAStep :
    (∃ t, exec .evalReject (full zeros [wordRst]) = .next t) ∧ (∃ t, exec .rst (full zeros [wordRst]) = .next t) ∧
    (∃ t, step (full zeros [wordMon, wordRst]) = .next t) := by
  refine ⟨?_, ⟨_, rfl⟩, ?_⟩
  · exact (next_of_after (p := fun _ => true)
      (show after (exec .evalReject (full zeros [wordRst])) _ = true by decide)).imp fun _ h => h.1
  · exact (next_of_after (p := fun _ => true)
      (show after (step (full zeros [wordMon, wordRst])) _ = true by decide)).imp fun _ h => h.1

end Sys2Proof.Tests
end

section
/-! The gate's channel check as a membership fact about the decoded value (R109). -/

namespace Sys2Proof.Machine

/-- The check passes exactly the values the gate accepts: both bounds of `[364, 1684]` are inclusive. -/
theorem channelBad_eq_false_iff (v : BitVec 11) : channelBad v = false ↔ ChannelOk v := by
  simp only [channelBad, ChannelOk, Bool.or_eq_false_iff, decide_eq_false_iff_not, Nat.not_lt]

/-- Settles O53: each channel's check is `channelBad` of the very field the decode gives for that channel, and of nothing
else. -/
theorem channelValidityIsMembership : Obligations.ChannelValidityIsMembership := by
  intro w d
  refine ⟨?rightX, ?rightY, ?leftX, ?leftY⟩
  case rightX => exact channelBad_eq_false_iff d.chRX
  case rightY => exact channelBad_eq_false_iff d.chRY
  case leftX => exact channelBad_eq_false_iff d.chLX
  case leftY => exact channelBad_eq_false_iff d.chLY

end Sys2Proof.Machine
end

section
/-! The gate over the output trace (R128): what a frame with `CORRUPT = 0` decodes to, what one step can append to the
trace, and that the two together let nothing but a valid frame's decode be published. -/

namespace Sys2Proof.Machine

/-- The switch check passes every code but the reserved one (R104, R105). -/
theorem switchBad_eq_false_iff (v : BitVec 2) : switchBad v = false ↔ v ≠ 0 := by
  simp only [switchBad, Config.swInvalid, decide_eq_false_iff_not]
  exact not_congr (BitVec.toNat_inj (x := v) (y := 0))

/-- Every decode lies in the ranges of rule R24, whatever the frame: only the mouse fields are not bounded by their
width. -/
theorem unpackFrame_inRange (w : FrameWord) : (unpackFrame w).InRange :=
  ⟨sext16_range _, sext16_range _, sext16_range _⟩

/-- A frame that none of the six checks objects to decodes to values in the gate's ranges (R106, R109). -/
theorem gateOk_unpackFrame {w : FrameWord} (h : corruptFrame w = false) : GateOk (unpackFrame w) := by
  simp only [corruptFrame, Bool.or_eq_false_iff] at h
  obtain ⟨⟨⟨⟨⟨hrx, hry⟩, hlx⟩, hly⟩, hswr⟩, hswl⟩ := h
  exact {
    chRX := (channelBad_eq_false_iff _).mp hrx
    chRY := (channelBad_eq_false_iff _).mp hry
    chLX := (channelBad_eq_false_iff _).mp hlx
    chLY := (channelBad_eq_false_iff _).mp hly
    swR := (switchBad_eq_false_iff _).mp hswr
    swL := (switchBad_eq_false_iff _).mp hswl
    range := unpackFrame_inRange w }

/-- The `EVAL` of a corrupt frame emits `RESYNC` and nothing else (R143). -/
theorem evalResult_trace_reject {w : FrameWord} (s : State) (h : corruptFrame w = true) :
    (evalResult w s).trace = s.trace ++ [.resync] := by
  simp [evalResult_reject h]

/-- The `EVAL` of a valid frame emits `PUB` of its decode and nothing else (R122). -/
theorem evalResult_trace_accept {w : FrameWord} (s : State) (h : corruptFrame w = false) :
    (evalResult w s).trace = s.trace ++ [.pub (unpackFrame w)] := by
  simp [evalResult_accept h]

/-- INVERSION of a step for the trace: it is kept, or emptied by `RST` (R170), or gains the one event of an `EVAL`, the
frame's verdict choosing which (R122, R143). -/
theorem step_trace_cases {s t : State} (h : step s = .next t) :
    t.trace = s.trace ∨ t.trace = [] ∨
    (s.fsm = .reading ∧ s.cnt = 18 ∧ ∃ w, bufFrame s.buf = some w ∧
      ((corruptFrame w = true ∧ t.trace = s.trace ++ [.resync]) ∨
       (corruptFrame w = false ∧ t.trace = s.trace ++ [.pub (unpackFrame w)]))) := by
  rcases step_cases h with ⟨_, _, _, _, _, rfl⟩ | ⟨e, _, hc⟩
  case inl => exact .inl rfl
  case inr =>
    rcases runCycle_cases hc with ⟨_, rfl⟩ | ⟨_, hf, hn, w, hw, rfl⟩ | ⟨_, _, _, _, rfl⟩ | ⟨_, _, _, rfl⟩ |
      ⟨_, _, _, _, rfl⟩
    · exact .inr (.inl rfl)
    · refine .inr (.inr ⟨hf, hn, w, hw, ?_⟩)
      cases hv : corruptFrame w with
      | true => exact .inl ⟨rfl, evalResult_trace_reject _ hv⟩
      | false => exact .inr ⟨rfl, evalResult_trace_accept _ hv⟩
    · exact .inl rfl
    · exact .inl rfl
    · exact .inl rfl

/-- A `PUB(d)` among what a step appends is all it appends, and `d` is the decode of a valid frame judged in this step:
of the ways a step can treat the trace, only the accepting `EVAL` appends a `PUB`. -/
theorem pub_of_step_appends {s t : State} {new : List OutEvent} {d : DecodedFrame} (h : step s = .next t)
    (ht : t.trace = s.trace ++ new) (hd : .pub d ∈ new) :
    new = [.pub d] ∧ s.fsm = .reading ∧ s.cnt = 18 ∧
      ∃ w, bufFrame s.buf = some w ∧ corruptFrame w = false ∧ d = unpackFrame w := by
  rcases step_trace_cases h with hk | hr | ⟨hf, hn, w, hw, ⟨_, hv⟩ | ⟨hc, hv⟩⟩
  · have hnew : new = [] := List.self_eq_append_right.mp (hk.symm.trans ht)
    simp [hnew] at hd
  · have hnew : new = [] := (List.append_eq_nil_iff.mp (ht.symm.trans hr)).2
    simp [hnew] at hd
  · have hnew : new = [.resync] := List.append_cancel_left (ht.symm.trans hv)
    simp [hnew] at hd
  · have hnew : new = [.pub (unpackFrame w)] := List.append_cancel_left (ht.symm.trans hv)
    have hdw : d = unpackFrame w := by simpa [hnew] using hd
    exact ⟨hdw ▸ hnew, hf, hn, w, hw, hc, hdw⟩

/-- A valid frame that reaches `EVAL` in a cycle without reset is published. -/
theorem step_publishes_valid_frame {s : State} {e : EvtWord} {w : FrameWord} (he : nextInput s = .evt e)
    (hr : evtRst e = false) (hf : s.fsm = .reading) (hn : s.cnt = 18) (hw : bufFrame s.buf = some w)
    (hc : corruptFrame w = false) : ∃ t, step s = .next t ∧ t.trace = s.trace ++ [.pub (unpackFrame w)] :=
  ⟨evalResult w (beginStep s), (step_evt he).trans (runCycle_eval hr hf hn hw), evalResult_trace_accept _ hc⟩

/-- Settles O43: only an accepting `EVAL` appends a `PUB`, its frame's decode is in the gate's ranges, and every valid frame
that reaches `EVAL` takes that branch. -/
theorem nothingIsPublishedPastTheGate : Obligations.NothingIsPublishedPastTheGate := by
  refine ⟨fun s t new d h ht hd => ?onlyValid, fun s e w he hr hf hn hw hc => ?everyValid⟩
  case onlyValid =>
    obtain ⟨hnew, hf, hn, w, hw, hc, rfl⟩ := pub_of_step_appends h ht hd
    exact ⟨hnew, hf, hn, w, hw, hc, rfl, gateOk_unpackFrame hc⟩
  case everyValid => exact step_publishes_valid_frame he hr hf hn hw hc

end Sys2Proof.Machine
end

section
/-! Taking the exception `FrameCorrupt` (R143). -/

namespace Sys2Proof.Machine

/-- Settles O25: an enabled `EVAL.REJECT` of a corrupt frame is `raiseFrameCorrupt`, whose effect on each field is known. -/
theorem evalRejectTakesFrameCorrupt : Obligations.EvalRejectTakesFrameCorrupt := by
  intro w s hf hn hw hc
  refine ⟨raiseFrameCorrupt (causeVector w) s, exec_evalReject_enabled hf hn hw hc, ?fsm, ?cnt, ?trace, ?view, ?buf⟩
  case fsm => exact raiseFrameCorrupt_fsm _ s
  case cnt => exact raiseFrameCorrupt_cnt _ s
  case trace => exact raiseFrameCorrupt_trace _ s
  case view => exact raiseFrameCorrupt_view _ s
  case buf => exact raiseFrameCorrupt_buf _ s

end Sys2Proof.Machine
end

section
/-! A step by what it did: the inversion `step_cases` with its cycle's branches, as one inductive with named cases, and
what is selected in the cases that have no selection lemma yet (rules R69, R125). -/

namespace Sys2Proof.Machine

/-- What a step from `s` that answers a next state did, with the conditions under which it did so and the state it
answered. -/
inductive StepBy (s : State) : State → Prop
  | query {i : Nat} {m : BitVec 16} {b : Bool} (hx : nextInput s = .query i m) (hb : keyHeldBit i m = some b) :
      StepBy s (drive (fun x => { x with keyHeld := some b }) (beginStep s))
  | rst {e : EvtWord} (hx : nextInput s = .evt e) (hr : evtRst e = true) : StepBy s (resetBlock (beginStep s))
  | reject {e : EvtWord} {w : FrameWord} (hx : nextInput s = .evt e) (hr : evtRst e = false) (hf : s.fsm = .reading)
      (hn : s.cnt = 18) (hw : bufFrame s.buf = some w) (hc : corruptFrame w = true) :
      StepBy s (raiseFrameCorrupt (causeVector w) (drive (gateDrive w) (beginStep s)))
  | accept {e : EvtWord} {w : FrameWord} (hx : nextInput s = .evt e) (hr : evtRst e = false) (hf : s.fsm = .reading)
      (hn : s.cnt = 18) (hw : bufFrame s.buf = some w) (hc : corruptFrame w = false) :
      StepBy s (acceptFrame w (drive (unpackDrive w) (drive (gateDrive w) (beginStep s))))
  | rxb {e : EvtWord} (hx : nextInput s = .evt e) (hr : evtRst e = false) (hf : s.fsm = .reading) (hn : s.cnt < 18)
      (hv : evtRxValid e = true) :
      StepBy s (setCnt (s.cnt + 1) (setBuf (bufWrite s.buf s.cnt (evtRxData e)) (beginStep s)))
  | resume {e : EvtWord} (hx : nextInput s = .evt e) (hr : evtRst e = false) (hf : s.fsm = .recovering)
      (hu : evtResume e = true) : StepBy s (returnFromRecovery (beginStep s))
  | idle {e : EvtWord} (hx : nextInput s = .evt e) (hr : evtRst e = false) (hev : ¬ (s.fsm = .reading ∧ s.cnt = 18))
      (hrx : ¬ (evtRxValid e = true ∧ s.fsm = .reading ∧ s.cnt < 18))
      (hre : ¬ (evtResume e = true ∧ s.fsm = .recovering)) : StepBy s (beginStep s)

theorem exec_keyheld_some {i : Nat} {m : BitVec 16} {b : Bool} (h : keyHeldBit i m = some b) (s : State) :
    exec (.keyheld i m) s = .next (drive (fun x => { x with keyHeld := some b }) s) := by
  show execKeyheld i m s = _
  rw [execKeyheld, h]

theorem exec_keyheld_refused {i : Nat} (m : BitVec 16) (h : 20 ≤ i) (s : State) :
    exec (.keyheld i m) s = .refused .keyIndexUndefined := by
  show execKeyheld i m s = _
  rw [execKeyheld, keyHeldBit_none m h]

theorem exec_resume_enabled {s : State} (h : s.fsm = .recovering) : exec .resume s = .next (returnFromRecovery s) :=
  if_pos h

theorem exec_resume_disabled {s : State} (h : s.fsm ≠ .recovering) : exec .resume s = .next s := if_neg h

/-- INVERSION of a step, by name. -/
theorem step_by {s t : State} (h : step s = .next t) : StepBy s t := by
  cases hx : nextInput s with
  | query i m =>
    rw [step_query hx] at h
    obtain ⟨b, hb⟩ := keyHeldBit_some (m := m) (exec_keyheld_next h).1
    rw [exec_keyheld_some hb] at h
    cases h
    exact .query hx hb
  | evt e =>
    rw [step_evt hx] at h
    rcases runCycle_cases h with ⟨hr, rfl⟩ | ⟨hr, hf, hn, w, hw, rfl⟩ | ⟨hr, hf, hn, hv, rfl⟩ | ⟨hr, hf, hu, rfl⟩ |
      ⟨hr, hev, hrx, hre, rfl⟩
    · exact .rst hx hr
    · cases hc : corruptFrame w with
      | true => rw [evalResult_reject hc]; exact .reject hx hr hf hn hw hc
      | false => rw [evalResult_accept hc]; exact .accept hx hr hf hn hw hc
    · exact .rxb hx hr hf hn hv
    · exact .resume hx hr hf hu
    · exact .idle hx hr hev hrx hre

theorem selectEvt_idle {f : Fsm} {n : Nat} {e : EvtWord} (hr : evtRst e = false) (hev : ¬ (f = .reading ∧ n = 18))
    (hrx : ¬ (evtRxValid e = true ∧ f = .reading ∧ n < 18)) (hre : ¬ (evtResume e = true ∧ f = .recovering)) :
    selectEvt f n e = .op .idle := by
  rw [selectEvt, if_neg (by simp [hr]), if_neg hev, if_neg hrx, if_neg hre]

end Sys2Proof.Machine
end

section
/-! The invariant of reachable states (R127, R128): each update of the state that a step can be made of keeps it. -/

namespace Sys2Proof.Machine

theorem Inv.drive {s : State} (h : Inv s) (f : Wires → Wires) : Inv (drive f s) :=
  ⟨h.cnt_le, h.recovering, h.buf_wf, h.written, h.view_ok, h.trace_ok⟩

theorem Inv.beginStep {s : State} (h : Inv s) : Inv (beginStep s) :=
  ⟨h.cnt_le, h.recovering, h.buf_wf, h.written, h.view_ok, h.trace_ok⟩

/-- The reset block meets the invariant: it holds no value, has published nothing and waits for byte 0. -/
theorem inv_resetBlock (s : State) : Inv (resetBlock s) where
  cnt_le := by simp
  recovering _ := resetBlock_cnt s
  buf_wf := bufWf_nil
  written a ha := by simp at ha
  view_ok d hd := by simp at hd
  trace_ok d hd := by simp at hd

/-- Taking the exception publishes nothing and returns the counter to 0. -/
theorem Inv.raiseFrameCorrupt {s : State} (h : Inv s) (bad : BitVec 6) : Inv (raiseFrameCorrupt bad s) where
  cnt_le := by simp
  recovering _ := raiseFrameCorrupt_cnt bad s
  buf_wf := h.buf_wf
  written a ha := by simp at ha
  view_ok := h.view_ok
  trace_ok d hd := h.trace_ok d (by simpa using hd)

/-- Accepting a frame that the gate lets through puts a value in the gate's ranges on the view and on the trace. -/
theorem Inv.acceptFrame {s : State} (h : Inv s) {w : FrameWord} (hc : corruptFrame w = false) :
    Inv (acceptFrame w s) where
  cnt_le := by simp
  recovering _ := acceptFrame_cnt w s
  buf_wf := h.buf_wf
  written a ha := by simp at ha
  view_ok d hd := by
    have hd' : unpackFrame w = d := by simpa using hd
    exact hd' ▸ gateOk_unpackFrame hc
  trace_ok d hd := by
    have hd' : .pub d ∈ s.trace ∨ d = unpackFrame w := by simpa using hd
    rcases hd' with hold | rfl
    · exact h.trace_ok d hold
    · exact gateOk_unpackFrame hc

/-- Receiving a byte below the counter's bound writes exactly the cell that the advanced counter newly covers. -/
theorem Inv.receive {s : State} (h : Inv s) (hf : s.fsm = .reading) (hn : s.cnt < 18) (b : Byte) :
    Inv (setCnt (s.cnt + 1) (setBuf (bufWrite s.buf s.cnt b) s)) where
  cnt_le := hn
  recovering hrec := by simp [hf] at hrec
  buf_wf := bufWrite_wf b h.buf_wf hn
  written a ha := by
    replace ha : a < s.cnt + 1 := ha
    show ∃ v, bufRead (bufWrite s.buf s.cnt b) a = some v
    rcases Nat.lt_succ_iff_lt_or_eq.mp ha with hlt | rfl
    · rw [bufRead_write_other s.buf b hlt.ne]; exact h.written a hlt
    · exact ⟨b, bufRead_write_same s.buf s.cnt b⟩
  view_ok := h.view_ok
  trace_ok := h.trace_ok

theorem Inv.returnFromRecovery {s : State} (h : Inv s) : Inv (returnFromRecovery s) where
  cnt_le := h.cnt_le
  recovering hrec := by simp at hrec
  buf_wf := h.buf_wf
  written := h.written
  view_ok := h.view_ok
  trace_ok := h.trace_ok

/-- Settles O3: whichever branch the step took, the updates it is made of keep the invariant. -/
theorem everyStepKeepsTheInvariant : Obligations.EveryStepKeepsTheInvariant := by
  intro s t h hst
  cases step_by hst with
  | query _ _ => exact h.beginStep.drive _
  | rst _ _ => exact inv_resetBlock _
  | reject _ _ _ _ _ _ => exact (h.beginStep.drive _).raiseFrameCorrupt _
  | accept _ _ _ _ _ hc => exact ((h.beginStep.drive _).drive _).acceptFrame hc
  | rxb _ _ hf hn _ => exact h.beginStep.receive hf hn _
  | resume _ _ _ _ => exact h.beginStep.returnFromRecovery
  | idle _ _ _ _ _ => exact h.beginStep

/-- Settles O2: the reset state is the reset block of itself. -/
theorem resetMeetsTheInvariant : Obligations.ResetMeetsTheInvariant := inv_resetBlock State.reset

/-- A complete frame's buffer holds a frame (R127 (c)). -/
theorem Inv.bufFrame_some {s : State} (h : Inv s) (hn : s.cnt = 18) : ∃ w, bufFrame s.buf = some w :=
  Machine.bufFrame_some fun c hc => h.written c (by omega)

/-- A cycle from a state of the invariant answers a next state: the one fault, `EVAL` over a cell without a value, is
excluded. -/
theorem Inv.runCycle_next {s : State} (h : Inv s) (e : EvtWord) : ∃ t, runCycle e s = .next t := by
  rcases selectEvt_cases s.fsm s.cnt e with ⟨_, hs⟩ | ⟨hr, hf, hn, _⟩ | ⟨_, hf, hn, _, hs⟩ | ⟨_, hf, _, hs⟩ |
    ⟨_, _, _, _, hs⟩
  · exact ⟨_, runCycle_op hs⟩
  · obtain ⟨w, hw⟩ := h.bufFrame_some hn
    exact ⟨_, runCycle_eval hr hf hn hw⟩
  · exact ⟨_, (runCycle_op hs).trans (exec_rxb_enabled _ hf hn)⟩
  · exact ⟨_, (runCycle_op hs).trans (exec_resume_enabled hf)⟩
  · exact ⟨_, runCycle_op hs⟩

/-- Settles O4: a cycle goes on by the invariant, a query by its key index alone. -/
theorem noStepFromTheInvariantStops : Obligations.NoStepFromTheInvariantStops := by
  intro s h
  cases hx : nextInput s with
  | evt e =>
    refine ⟨fun _ => ?_, fun hd => absurd trivial hd⟩
    rw [step_evt hx]
    exact h.beginStep.runCycle_next e
  | query i m =>
    rw [step_query hx]
    refine ⟨fun hi => ?_, fun hi => exec_keyheld_refused m (Nat.le_of_not_lt hi) _⟩
    obtain ⟨b, hb⟩ := keyHeldBit_some (m := m) hi
    exact ⟨_, exec_keyheld_some hb _⟩

/-- If all the items presented are defined, so is the next one: the list's first, or the word 0x000 after its end. -/
theorem defined_nextInput {s : State} (h : ∀ x ∈ s.input, Input.Defined x) : Input.Defined (nextInput s) := by
  unfold nextInput
  split
  next => exact trivial
  next x rest hin => exact h x (by simp [hin])

/-- Settles O5: by induction on the number of steps, with the invariant and the items still to come carried along. -/
theorem runsNeverStop : Obligations.RunsNeverStop := by
  intro n
  induction n with
  | zero => exact fun s _ _ => ⟨s, rfl⟩
  | succ n ih =>
    intro s h hdef
    obtain ⟨t, ht⟩ := (noStepFromTheInvariantStops s h).1 (defined_nextInput hdef)
    have hdef' : ∀ x ∈ t.input, Input.Defined x := by
      rw [step_input ht]
      exact fun x hx => hdef x (List.mem_of_mem_tail hx)
    obtain ⟨u, hu⟩ := ih t (everyStepKeepsTheInvariant s t h ht) hdef'
    exact ⟨u, (runSteps_next ht).trans hu⟩

end Sys2Proof.Machine
end

section
/-! The counts of rule R127 (e), (f): what each kind of step adds to the tally and to the trace. -/

namespace Sys2Proof.Machine

@[simp] theorem pubCount_append (tr new : List OutEvent) : pubCount (tr ++ new) = pubCount tr + pubCount new :=
  List.countP_append

@[simp] theorem resyncCount_append (tr new : List OutEvent) :
    resyncCount (tr ++ new) = resyncCount tr + resyncCount new := List.count_append

@[simp] theorem pubCount_pub (d : DecodedFrame) : pubCount [.pub d] = 1 := rfl
@[simp] theorem pubCount_resync : pubCount [.resync] = 0 := rfl
@[simp] theorem resyncCount_pub (d : DecodedFrame) : resyncCount [.pub d] = 0 := rfl
@[simp] theorem resyncCount_resync : resyncCount [.resync] = 1 := rfl

theorem tallyStep_query {s : State} {i : Nat} {m : BitVec 16} (k : Tally) (hx : nextInput s = .query i m) :
    tallyStep s k = k := by
  simp [tallyStep, hx]

theorem tallyStep_rst {s : State} {e : EvtWord} (k : Tally) (hx : nextInput s = .evt e) (hr : evtRst e = true) :
    tallyStep s k = {} := by
  simp [tallyStep, hx, selectEvt_rst hr]

theorem tallyStep_eval {s : State} {e : EvtWord} (k : Tally) (hx : nextInput s = .evt e) (hr : evtRst e = false)
    (hf : s.fsm = .reading) (hn : s.cnt = 18) : tallyStep s k = { k with evals := k.evals + 1 } := by
  simp [tallyStep, hx, hf, hn, selectEvt_eval hr]

theorem tallyStep_rxb {s : State} {e : EvtWord} (k : Tally) (hx : nextInput s = .evt e) (hr : evtRst e = false)
    (hf : s.fsm = .reading) (hn : s.cnt < 18) (hv : evtRxValid e = true) :
    tallyStep s k = { k with rxbs := k.rxbs + 1 } := by
  simp [tallyStep, hx, hf, selectEvt_rxb hr hv hn]

theorem tallyStep_resume {s : State} {e : EvtWord} (k : Tally) (hx : nextInput s = .evt e) (hr : evtRst e = false)
    (hf : s.fsm = .recovering) (hu : evtResume e = true) : tallyStep s k = { k with resumes := k.resumes + 1 } := by
  simp [tallyStep, hx, hf, selectEvt_resume hr hu]

theorem tallyStep_idle {s : State} {e : EvtWord} (k : Tally) (hx : nextInput s = .evt e)
    (hs : selectEvt s.fsm s.cnt e = .op .idle) : tallyStep s k = k := by
  simp [tallyStep, hx, hs]

theorem countsMatch_resetBlock (s : State) : CountsMatch (resetBlock s) {} := ⟨rfl, rfl, rfl⟩

/-- Every step keeps the counts: an `EVAL` adds its one event and takes the counter's eighteen bytes, a rejection enters
`RECOVERING` and `RESUME` leaves it. -/
theorem CountsMatch.afterStep {s t : State} {k : Tally} (h : CountsMatch s k) (hst : step s = .next t) :
    CountsMatch t (tallyStep s k) := by
  obtain ⟨hevents, hbytes, hresumes⟩ := h
  cases step_by hst with
  | query hx _ => rw [tallyStep_query k hx]; exact ⟨hevents, hbytes, hresumes⟩
  | rst hx hr => rw [tallyStep_rst k hx hr]; exact countsMatch_resetBlock _
  | reject hx hr hf hn _ _ =>
    simp only [hf, reduceCtorEq, if_false] at hresumes
    rw [tallyStep_eval k hx hr hf hn]
    exact { events := by simp; omega, bytes := by simp; omega, resumes := by simp; omega }
  | accept hx hr hf hn _ _ =>
    simp only [hf, reduceCtorEq, if_false] at hresumes
    rw [tallyStep_eval k hx hr hf hn]
    exact { events := by simp; omega, bytes := by simp; omega, resumes := by simp [hf]; omega }
  | rxb hx hr hf hn hv =>
    rw [tallyStep_rxb k hx hr hf hn hv]
    exact { events := hevents, bytes := by simp; omega, resumes := hresumes }
  | resume hx hr hf hu =>
    rw [if_pos hf] at hresumes
    rw [tallyStep_resume k hx hr hf hu]
    exact { events := hevents, bytes := hbytes, resumes := by simpa using hresumes }
  | idle hx hr hev hrx hre =>
    rw [tallyStep_idle k hx (selectEvt_idle hr hev hrx hre)]
    exact ⟨hevents, hbytes, hresumes⟩

/-- Settles O51: the counts match at reset, and `CountsMatch.afterStep` keeps them. -/
theorem everyStepKeepsTheEventCounts : Obligations.EveryStepKeepsTheEventCounts :=
  ⟨countsMatch_resetBlock State.reset, fun _ _ _ => CountsMatch.afterStep⟩

theorem tallyRun_next {s t : State} (n : Nat) (k : Tally) (h : step s = .next t) :
    tallyRun (n + 1) s k = tallyRun n t (tallyStep s k) := by
  simp [tallyRun, h]

/-- A run keeps the counts, its steps tallied one by one. -/
theorem CountsMatch.afterRun {n : Nat} {s t : State} {k : Tally} (h : CountsMatch s k) (hst : runSteps n s = .next t) :
    CountsMatch t (tallyRun n s k) := by
  induction n generalizing s k with
  | zero => cases hst; exact h
  | succ n ih =>
    rw [runSteps_succ] at hst
    cases hs : step s with
    | next u =>
      rw [hs] at hst
      rw [tallyRun_next n k hs]
      exact ih (h.afterStep hs) hst
    | fault r => rw [hs] at hst; cases hst
    | refused r => rw [hs] at hst; cases hst

/-- Settles O50: the counts match at reset with nothing tallied, whatever is presented, and a run keeps them. -/
theorem eventCountsMatchTheSteps : Obligations.EventCountsMatchTheSteps := by
  intro script n t ht k
  obtain ⟨hevents, hbytes, hresumes⟩ : CountsMatch t k :=
    (countsMatch_resetBlock { State.reset with input := script }).afterRun ht
  exact ⟨hevents, hbytes, hresumes⟩

end Sys2Proof.Machine
end

section
/-! What no step can observe: the wires (R27), the old view and the cells not yet rewritten (R26, R47, U13). -/

namespace Sys2Proof.Machine

/-- Settles O45: the step begins by quieting the wires, and what is presented does not depend on them. -/
theorem wiresAreNeverRead : Obligations.WiresAreNeverRead := by
  intro s t h
  have hx : nextInput s = nextInput t := by simp only [nextInput, h.input]
  have hb : beginStep s = beginStep t :=
    state_ext h.fsm h.cnt h.buf h.view h.trace rfl (congrArg List.tail h.input)
  rw [step, step, hx, hb]

/-- States that differ in old contents only, with the same wires: what a step may leave behind when it began in states that
differ in old contents only. -/
abbrev SameObservation (s t : State) : Prop := SameButOldContents s t ∧ s.wires = t.wires

theorem SameButOldContents.nextInput_eq {s t : State} (h : SameButOldContents s t) : nextInput s = nextInput t := by
  simp only [nextInput, h.input]

theorem SameButOldContents.beginStep {s t : State} (h : SameButOldContents s t) :
    SameObservation (beginStep s) (beginStep t) :=
  ⟨⟨h.fsm, h.cnt, h.trace, congrArg List.tail h.input, h.cells⟩, rfl⟩

/-- With all eighteen bytes received no old cell is left: the two buffers hold the same frame. -/
theorem SameButOldContents.bufFrame_eq {s t : State} (h : SameButOldContents s t) (hn : s.cnt = 18) :
    bufFrame s.buf = bufFrame t.buf :=
  bufFrame_congr fun c hc => h.cells c (by omega)

theorem SameObservation.drive {s t : State} (h : SameObservation s t) (f : Wires → Wires) :
    SameObservation (drive f s) (drive f t) :=
  ⟨⟨h.1.fsm, h.1.cnt, h.1.trace, h.1.input, h.1.cells⟩, congrArg f h.2⟩

theorem SameObservation.resetBlock {s t : State} (h : SameObservation s t) :
    SameObservation (resetBlock s) (resetBlock t) :=
  ⟨⟨rfl, rfl, rfl, h.1.input, fun _ _ => rfl⟩, rfl⟩

theorem SameObservation.raiseFrameCorrupt {s t : State} (h : SameObservation s t) (bad : BitVec 6) :
    SameObservation (raiseFrameCorrupt bad s) (raiseFrameCorrupt bad t) :=
  ⟨⟨rfl, rfl, by simp [h.1.trace], h.1.input, by simp⟩, by simp [h.2]⟩

theorem SameObservation.acceptFrame {s t : State} (h : SameObservation s t) (w : FrameWord) :
    SameObservation (acceptFrame w s) (acceptFrame w t) :=
  ⟨⟨h.1.fsm, rfl, by simp [h.1.trace], h.1.input, by simp⟩, by simp [h.2]⟩

/-- The byte received replaces the old contents of the cell that the advanced counter newly covers. -/
theorem SameObservation.receive {s t : State} (h : SameObservation s t) (b : Byte) :
    SameObservation (setCnt (s.cnt + 1) (setBuf (bufWrite s.buf s.cnt b) s))
      (setCnt (t.cnt + 1) (setBuf (bufWrite t.buf t.cnt b) t)) := by
  refine ⟨⟨h.1.fsm, by simp [h.1.cnt], h.1.trace, h.1.input, fun a ha => ?_⟩, h.2⟩
  replace ha : a < s.cnt + 1 := ha
  show bufRead (bufWrite s.buf s.cnt b) a = bufRead (bufWrite t.buf t.cnt b) a
  rw [bufRead_write, bufRead_write, ← h.1.cnt]
  split
  next => rfl
  next hne => exact h.1.cells a (by omega)

theorem SameObservation.returnFromRecovery {s t : State} (h : SameObservation s t) :
    SameObservation (returnFromRecovery s) (returnFromRecovery t) :=
  ⟨⟨rfl, h.1.cnt, h.1.trace, h.1.input, h.1.cells⟩, h.2⟩

/-- An `EVAL` of one frame, from states that differ in old contents, has one verdict. -/
theorem SameObservation.evalResult {s t : State} (h : SameObservation s t) (w : FrameWord) :
    SameObservation (evalResult w s) (evalResult w t) := by
  cases hc : corruptFrame w with
  | true =>
    rw [evalResult_reject hc, evalResult_reject hc]
    exact (h.drive _).raiseFrameCorrupt _
  | false =>
    rw [evalResult_accept hc, evalResult_accept hc]
    exact ((h.drive _).drive _).acceptFrame w

/-- A query reads nothing of the state. -/
theorem SameObservation.exec_keyheld {s t : State} (h : SameObservation s t) (i : Nat) (m : BitVec 16) :
    ResultRel SameObservation (exec (.keyheld i m) s) (exec (.keyheld i m) t) := by
  by_cases hi : i < 20
  · obtain ⟨b, hb⟩ := keyHeldBit_some (m := m) hi
    rw [exec_keyheld_some hb, exec_keyheld_some hb]
    exact h.drive _
  · rw [exec_keyheld_refused m (Nat.le_of_not_lt hi), exec_keyheld_refused m (Nat.le_of_not_lt hi)]
    exact rfl

/-- A cycle selects by `fsm` and `cnt`, which agree, and what it selects reads no old contents. -/
theorem SameObservation.runCycle {s t : State} (h : SameObservation s t) (e : EvtWord) :
    ResultRel SameObservation (runCycle e s) (runCycle e t) := by
  have hfsm := h.1.fsm
  have hcnt := h.1.cnt
  have hsel : selectEvt t.fsm t.cnt e = selectEvt s.fsm s.cnt e := by rw [hfsm, hcnt]
  rcases selectEvt_cases s.fsm s.cnt e with ⟨_, hs⟩ | ⟨hr, hf, hn, _⟩ | ⟨_, hf, hn, _, hs⟩ | ⟨_, hf, _, hs⟩ |
    ⟨_, _, _, _, hs⟩
  · rw [runCycle_op hs, runCycle_op (hsel.trans hs)]
    exact h.resetBlock
  · cases hw : bufFrame s.buf with
    | none =>
      rw [runCycle_eval_fault hr hf hn hw,
        runCycle_eval_fault hr (hfsm ▸ hf) (hcnt ▸ hn) (h.1.bufFrame_eq hn ▸ hw)]
      exact rfl
    | some w =>
      rw [runCycle_eval hr hf hn hw, runCycle_eval hr (hfsm ▸ hf) (hcnt ▸ hn) (h.1.bufFrame_eq hn ▸ hw)]
      exact h.evalResult w
  · rw [runCycle_op hs, runCycle_op (hsel.trans hs), exec_rxb_enabled _ hf hn,
      exec_rxb_enabled _ (hfsm ▸ hf) (hcnt ▸ hn)]
    exact h.receive _
  · rw [runCycle_op hs, runCycle_op (hsel.trans hs), exec_resume_enabled hf, exec_resume_enabled (hfsm ▸ hf)]
    exact h.returnFromRecovery
  · rw [runCycle_op hs, runCycle_op (hsel.trans hs)]
    exact h

/-- Settles O46: both steps take the same item, and neither a query nor a cycle reads old contents. -/
theorem oldContentsAreUnobservable : Obligations.OldContentsAreUnobservable := by
  intro s t h
  cases hx : nextInput s with
  | query i m =>
    rw [step_query hx, step_query (h.nextInput_eq ▸ hx)]
    exact h.beginStep.exec_keyheld i m
  | evt e =>
    rw [step_evt hx, step_evt (h.nextInput_eq ▸ hx)]
    exact h.beginStep.runCycle e

end Sys2Proof.Machine
end

section
/-! The sequencer's operations one by one: enabled (R120, R122, R144), not enabled (D11, log 5), over an empty cell
(log 3), and what all operations leave alone. -/

namespace Sys2Proof.Machine

/-- Settles O1: R33's table, each value read off the reset state. -/
theorem resetHasTheSpecifiedValues : Obligations.ResetHasTheSpecifiedValues :=
  ⟨reset_fsm, reset_cnt, bufRead_nil, reset_view, reset_trace, rfl, rfl, rfl, reset_input⟩

/-- Settles O22: an enabled `RXB` is one buffer write at `cnt`, then one counter update. -/
theorem rxbStoresAtCntAndAdvances : Obligations.RxbStoresAtCntAndAdvances := by
  intro b s hf hn
  refine ⟨_, exec_rxb_enabled b hf hn, setCnt_cnt _ _, ?written, ?others, rfl, rfl, rfl, rfl, rfl⟩
  case written => exact bufRead_write_same s.buf s.cnt b
  case others => exact fun a ha => bufRead_write_other s.buf b ha

theorem exec_evalAccept_disabled {s : State} (h : ¬ (s.fsm = .reading ∧ s.cnt = 18)) :
    exec .evalAccept s = .next s := by
  show execEvalAccept s = _
  rw [execEvalAccept, if_neg (by rwa [evalEnabled_iff])]

theorem exec_evalReject_disabled {s : State} (h : ¬ (s.fsm = .reading ∧ s.cnt = 18)) :
    exec .evalReject s = .next s := by
  show execEvalReject s = _
  rw [execEvalReject, if_neg (by rwa [evalEnabled_iff])]

/-- An enabled `EVAL.ACCEPT` does nothing for a corrupt frame: `EVAL.REJECT` is the outcome selected (R126). -/
theorem exec_evalAccept_of_corrupt {s : State} {w : FrameWord} (hf : s.fsm = .reading) (hn : s.cnt = 18)
    (hw : bufFrame s.buf = some w) (hc : corruptFrame w = true) : exec .evalAccept s = .next s := by
  show execEvalAccept s = _
  rw [execEvalAccept, if_pos ((evalEnabled_iff s).mpr ⟨hf, hn⟩), withFrame_some hw, if_pos hc]

/-- An enabled `EVAL.REJECT` does nothing for a valid frame: `EVAL.ACCEPT` is the outcome selected (R126). -/
theorem exec_evalReject_of_valid {s : State} {w : FrameWord} (hf : s.fsm = .reading) (hn : s.cnt = 18)
    (hw : bufFrame s.buf = some w) (hc : corruptFrame w = false) : exec .evalReject s = .next s := by
  show execEvalReject s = _
  rw [execEvalReject, if_pos ((evalEnabled_iff s).mpr ⟨hf, hn⟩), withFrame_some hw, if_neg (by simp [hc])]

theorem exec_evalAccept_emptyCell {s : State} (hf : s.fsm = .reading) (hn : s.cnt = 18) (hw : bufFrame s.buf = none) :
    exec .evalAccept s = .fault .emptyCell := by
  show execEvalAccept s = _
  rw [execEvalAccept, if_pos ((evalEnabled_iff s).mpr ⟨hf, hn⟩), withFrame_none hw]

theorem exec_evalReject_emptyCell {s : State} (hf : s.fsm = .reading) (hn : s.cnt = 18) (hw : bufFrame s.buf = none) :
    exec .evalReject s = .fault .emptyCell := by
  show execEvalReject s = _
  rw [execEvalReject, if_pos ((evalEnabled_iff s).mpr ⟨hf, hn⟩), withFrame_none hw]

/-- Settles O23: each operation's condition, negated. -/
theorem notEnabledMeansIgnored : Obligations.NotEnabledMeansIgnored := fun _ =>
  ⟨fun h b => exec_rxb_disabled b h, exec_resume_disabled,
    fun h => ⟨exec_evalAccept_disabled h, exec_evalReject_disabled h⟩,
    fun _ hf hn hw => ⟨exec_evalAccept_of_corrupt hf hn hw, exec_evalReject_of_valid hf hn hw⟩⟩

/-- Settles O24: an enabled `EVAL.ACCEPT` of a valid frame is `acceptFrame`, whose effect on each field is known. -/
theorem evalAcceptPublishesTheDecode : Obligations.EvalAcceptPublishesTheDecode := by
  intro w s hf hn hw hc
  exact ⟨acceptFrame w s, exec_evalAccept_enabled hf hn hw hc, acceptFrame_view w s, acceptFrame_trace w s,
    acceptFrame_cnt w s, hf, acceptFrame_buf w s, acceptFrame_input w s, acceptFrame_wires w s⟩

/-- Settles O26: an enabled `RESUME` is `returnFromRecovery`, which writes `fsm` only. -/
theorem resumeReturnsToReading : Obligations.ResumeReturnsToReading := fun _ hf =>
  ⟨_, exec_resume_enabled hf, rfl, rfl, rfl, rfl, rfl, rfl, rfl⟩

/-- A buffer that holds a frame holds eighteen bytes, and the frame is theirs. -/
theorem exists_bytes_of_bufFrame {m : Memory} {w : FrameWord} (h : bufFrame m = some w) :
    ∃ bs : List Byte, bs.length = 18 ∧ w = frameOf bs ∧ ∀ a, a < 18 → bufRead m a = bs[a]? := by
  rw [bufFrame_eq, Option.map_eq_some_iff] at h
  obtain ⟨bs, hbs, rfl⟩ := h
  obtain ⟨hl, hread⟩ := bufBytes_spec hbs
  exact ⟨bs, hl, rfl, fun a ha => by simpa using hread a ha⟩

/-- One cell without a value leaves the buffer without a frame. -/
theorem bufFrame_none_of_emptyCell {m : Memory} {a : Nat} (ha : a < 18) (h : bufRead m a = none) :
    bufFrame m = none := by
  cases hw : bufFrame m with
  | none => rfl
  | some w =>
    obtain ⟨bs, hl, -, hread⟩ := exists_bytes_of_bufFrame hw
    have hget := (hread a ha).symm.trans h
    rw [List.getElem?_eq_none_iff] at hget
    omega

/-- Settles O30: the buffer holds no frame, while the invariant would have the cell written. -/
theorem emptyCellStopsEval : Obligations.EmptyCellStopsEval := by
  intro s a hf hn ha hempty
  have hw := bufFrame_none_of_emptyCell ha hempty
  refine ⟨exec_evalAccept_emptyCell hf hn hw, exec_evalReject_emptyCell hf hn hw, fun hinv => ?_⟩
  obtain ⟨b, hb⟩ := hinv.written a (by omega)
  simp [hempty] at hb

/-- INVERSION of `EVAL.ACCEPT`. -/
theorem exec_evalAccept_next {s t : State} (h : exec .evalAccept s = .next t) : t = s ∨ ∃ w, t = acceptFrame w s := by
  replace h : execEvalAccept s = .next t := h
  unfold execEvalAccept at h
  split at h
  · obtain ⟨w, -, hk⟩ := withFrame_next h
    split at hk
    · cases hk; exact .inl rfl
    · cases hk; exact .inr ⟨w, rfl⟩
  · cases h; exact .inl rfl

/-- INVERSION of `EVAL.REJECT`. -/
theorem exec_evalReject_next {s t : State} (h : exec .evalReject s = .next t) :
    t = s ∨ ∃ bad, t = raiseFrameCorrupt bad s := by
  replace h : execEvalReject s = .next t := h
  unfold execEvalReject at h
  split at h
  · obtain ⟨w, -, hk⟩ := withFrame_next h
    split at hk
    · cases hk; exact .inr ⟨_, rfl⟩
    · cases hk; exact .inl rfl
  · cases h; exact .inl rfl

/-- No operation touches what is presented. -/
theorem exec_input {i : Instr} {s t : State} (h : exec i s = .next t) : t.input = s.input := by
  by_cases hfmt : i.format = .frame144
  · obtain ⟨f, hf⟩ := exec_frame144 hfmt s
    cases hf.symm.trans h
    rfl
  cases i with
  | keyheld k mask => obtain ⟨-, f, rfl⟩ := exec_keyheld_next h; rfl
  | rxb b =>
    by_cases hen : s.fsm = .reading ∧ s.cnt < 18
    · cases (exec_rxb_enabled b hen.1 hen.2).symm.trans h; rfl
    · cases (exec_rxb_disabled b hen).symm.trans h; rfl
  | evalAccept => rcases exec_evalAccept_next h with rfl | ⟨w, rfl⟩ <;> rfl
  | evalReject => rcases exec_evalReject_next h with rfl | ⟨bad, rfl⟩ <;> rfl
  | resume =>
    by_cases hf : s.fsm = .recovering
    · cases (exec_resume_enabled hf).symm.trans h; rfl
    · cases (exec_resume_disabled hf).symm.trans h; rfl
  | mon => cases h; rfl
  | idle => cases h; rfl
  | rst => cases h; rfl
  | _ => exact absurd rfl hfmt

/-- Settles O52: operations leave the list alone, and a step begins by taking its first item. -/
theorem presentedItemsAreTakenOneAStep : Obligations.PresentedItemsAreTakenOneAStep :=
  ⟨fun _ _ _ => exec_input, fun _ _ => step_input⟩

end Sys2Proof.Machine
end

section
/-! The event word (R69): its wires, the operations it selects, and the steps that wait, reset or judge. -/

namespace Sys2Proof.Machine

/-- A cycle depends on its word through the selection alone. -/
theorem runCycle_congr {e e' : EvtWord} {s : State} (h : selectEvt s.fsm s.cnt e = selectEvt s.fsm s.cnt e') :
    runCycle e s = runCycle e' s := by
  simp only [runCycle, runOps_monOps, h]

/-- The selection reads every wire but `mon`. -/
theorem selectEvt_congr {e e' : EvtWord} (hr : evtRst e = evtRst e') (hu : evtResume e = evtResume e')
    (hv : evtRxValid e = evtRxValid e') (hd : evtRxData e = evtRxData e') (f : Fsm) (n : Nat) :
    selectEvt f n e = selectEvt f n e' := by
  simp only [selectEvt, hr, hu, hv, hd]

/-- Settles O27: `MON` is the identity, and toggling its wire leaves the selection. -/
theorem monNeverChangesAnything : Obligations.MonNeverChangesAnything := by
  intro e rest s
  refine ⟨rfl, runCycle_congr (selectEvt_congr ?rst ?resume ?rxValid ?rxData s.fsm s.cnt)⟩
  case rst => simp [evtRst]
  case resume => simp [evtResume]
  case rxValid => simp [evtRxValid]
  case rxData => simp [evtRxData, BitVec.extractLsb'_xor]

/-- A step whose word selects an operation is that operation, with the word taken and the wires quiet. -/
theorem step_op {s : State} {e : EvtWord} {i : Instr} (hx : nextInput s = .evt e)
    (hs : selectEvt s.fsm s.cnt e = .op i) : step s = exec i (beginStep s) := by
  rw [step_evt hx]
  exact runCycle_op hs

/-- Settles O28: neither wait's cycle selects anything but `IDLE`. -/
theorem waitingKeepsEverything : Obligations.WaitingKeepsEverything := by
  intro s
  refine ⟨rfl, fun e hx hr hwait => ?_⟩
  have hs : selectEvt s.fsm s.cnt e = .op .idle := by
    rcases hwait with ⟨hf, hn, hv⟩ | ⟨hf, hu⟩
    · exact selectEvt_idle hr (by simp [hn.ne]) (by simp [hv]) (by simp [hf])
    · exact selectEvt_idle hr (by simp [hf]) (by simp [hf]) (by simp [hu])
  exact ⟨beginStep s, step_op hx hs, rfl, rfl, rfl, rfl, rfl, rfl⟩

/-- `rst` is the word's highest bit. -/
theorem evtRst_of_le {e : EvtWord} (h : 0x800 ≤ e.toNat) : evtRst e = true := by
  have hmsb : e.msb = decide (0x800 ≤ e.toNat) := BitVec.msb_eq_decide e
  rw [BitVec.msb_eq_getLsbD_last] at hmsb
  exact hmsb.trans (decide_eq_true h)

/-- Settles O29: a word with `rst` selects `RST`, which is `resetBlock`. -/
theorem rstGivesTheResetState : Obligations.RstGivesTheResetState := fun s =>
  ⟨rfl, fun _ hx h => step_op hx (selectEvt_rst (evtRst_of_le h) s.fsm s.cnt)⟩

/-- Settles O32: the gate's and the decode's operations drive their wires, and the outcome selected is enabled there. -/
theorem stepAtACompleteFrameIsEval : Obligations.StepAtACompleteFrameIsEval := by
  intro e w s hx hr hf hn hw gate d all
  have hstep : step s = .next (evalResult w (beginStep s)) := (step_evt hx).trans (runCycle_eval hr hf hn hw)
  refine ⟨fun hc => ?rejected, fun hc => ?accepted⟩
  case rejected =>
    rw [hstep, evalResult_reject hc]
    exact (exec_evalReject_enabled (s := drive (gateDrive w) (beginStep s)) hf hn hw hc).symm
  case accepted =>
    rw [hstep, evalResult_accept hc]
    exact (exec_evalAccept_enabled (s := drive (unpackDrive w) (drive (gateDrive w) (beginStep s))) hf hn hw hc).symm

/-- A wire of a word given as a number is the number's binary digit. -/
theorem getLsbD_ofNat_evtWord {v k : Nat} {b : Bool} (hk : k < 12) (h : v / 2 ^ k % 2 = b.toNat) :
    (BitVec.ofNat 12 v).getLsbD k = b := by
  rw [BitVec.getLsbD_ofNat, Nat.testBit_eq_decide_div_mod_eq, h]
  cases b <;> simp [hk]

/-- The word of rule R69, from its wires. -/
def evtWordOf (r m u v : Bool) (b : Byte) : EvtWord :=
  BitVec.ofNat 12 (r.toNat * 2 ^ 11 + m.toNat * 2 ^ 10 + u.toNat * 2 ^ 9 + v.toNat * 2 ^ 8 + b.toNat)

section
variable (r m u v : Bool) (b : Byte)

theorem evtRst_evtWordOf : evtRst (evtWordOf r m u v b) = r := by
  have hr := r.toNat_lt
  have hm := m.toNat_lt
  have hu := u.toNat_lt
  have hv := v.toNat_lt
  exact getLsbD_ofNat_evtWord (by decide) (by omega)

theorem evtResume_evtWordOf : evtResume (evtWordOf r m u v b) = u := by
  have hu := u.toNat_lt
  have hv := v.toNat_lt
  exact getLsbD_ofNat_evtWord (by decide) (by omega)

theorem evtRxValid_evtWordOf : evtRxValid (evtWordOf r m u v b) = v := by
  have hv := v.toNat_lt
  exact getLsbD_ofNat_evtWord (by decide) (by omega)

theorem evtRxData_evtWordOf : evtRxData (evtWordOf r m u v b) = b := by
  apply BitVec.eq_of_toNat_eq
  simp only [evtRxData, evtWordOf, BitVec.extractLsb'_toNat, BitVec.toNat_ofNat, Nat.shiftRight_zero]
  omega

end

/-- Settles O33: the wires of a word built from them are those given, so each priority is the selection's own lemma. -/
theorem selectionFollowsThePriorities : Obligations.SelectionFollowsThePriorities := by
  intro r m u v b cnt e
  have hr : evtRst e = r := evtRst_evtWordOf r m u v b
  have hu : evtResume e = u := evtResume_evtWordOf r m u v b
  have hv : evtRxValid e = v := evtRxValid_evtWordOf r m u v b
  have hd : evtRxData e = b := evtRxData_evtWordOf r m u v b
  clear_value e
  subst hr hu hv hd
  exact ⟨fun hr f => selectEvt_rst hr f cnt, selectEvt_eval, selectEvt_rxb,
    fun hr hv hn => selectEvt_idle hr (by simp [hn.ne]) (by simp [hv]) (by simp),
    fun hr hu => selectEvt_resume hr hu cnt,
    fun hr hu => selectEvt_idle hr (by simp) (by simp) (by simp [hu])⟩

/-- What a word selects is an operation the spec defines, whatever the loop state. -/
theorem wellFormed_of_selectEvt {f : Fsm} {n : Nat} {e : EvtWord} {i : Instr} (h : selectEvt f n e = .op i) :
    i.wellFormed = true := by
  rcases selectEvt_cases f n e with ⟨_, hs⟩ | ⟨_, _, _, hs⟩ | ⟨_, _, _, _, hs⟩ | ⟨_, _, _, hs⟩ | ⟨_, _, _, _, hs⟩ <;>
    cases hs.symm.trans h <;> rfl

/-- Two bytes whose value fits in twelve bits are an event word (log 12). -/
theorem decodePacket_bytesOf_two {v : Nat} (h : v < 2 ^ 12) :
    decodePacket (bytesOf 2 v) = .ok (.input (.evt (BitVec.ofNat 12 v))) := by
  have hhi : (BitVec.ofNat 8 (v / 256)).toNat < 16 := by
    rw [BitVec.toNat_ofNat]
    omega
  have hv : leNat (bytesOf 2 v) = v := by
    rw [leNat_bytesOf]
    omega
  show (if (BitVec.ofNat 8 (v / 256)).toNat < 16 then
    (Except.ok (.input (.evt (BitVec.ofNat 12 (leNat (bytesOf 2 v))))) : Except DecodeReject Packet) else _) = _
  rw [if_pos hhi, hv]

theorem decode_of_packet {bs : List Byte} {p : Packet} (h : decodePacket bs = .ok p) (f : Fsm) (n : Nat) :
    decode f n bs = .ok (rowsOf f n p) := by
  simp only [decode, h]

theorem rowsOf_evt_op {f : Fsm} {n : Nat} {e : EvtWord} {i : Instr} (h : selectEvt f n e = .op i) :
    rowsOf f n (.input (.evt e)) = monOps e ++ [i] := by
  simp only [rowsOf, h]

/-- Settles O31: the step and the decoder read the word by one selection. -/
theorem stepRunsTheSelectedOperation : Obligations.StepRunsTheSelectedOperation := by
  intro s
  refine ⟨fun e i hx hs => ⟨wellFormed_of_selectEvt hs, ?decoded, step_op hx hs⟩, fun i mask hx => step_query hx⟩
  case decoded =>
    have hp := decodePacket_bytesOf_two e.isLt
    rw [BitVec.ofNat_toNat, BitVec.setWidth_eq] at hp
    rw [decode_of_packet hp, rowsOf_evt_op hs]

end Sys2Proof.Machine
end

section
/-! Rules of the whole machine, each by the inversion of a step: what writes the buffer, the view and the trace, what
the output wires show, and how recovery ends. -/

namespace Sys2Proof.Machine

/-- Settles O39: of the ways a step can end, only `RXB` and `RST` change the buffer. -/
theorem onlyRxbWritesTheBuffer : Obligations.OnlyRxbWritesTheBuffer := by
  intro s t a hst hne
  cases step_by hst with
  | rst hx hr => exact ⟨_, hx, .inl ⟨hr, bufRead_nil a⟩⟩
  | rxb hx hr hf hn hv =>
    have ha : a = s.cnt := by
      by_contra h
      exact hne (bufRead_write_other s.buf _ h)
    subst ha
    exact ⟨_, hx, .inr ⟨hr, hv, hf, hn, rfl, bufRead_write_same s.buf s.cnt _⟩⟩
  | query | reject | accept | resume | idle => exact absurd rfl hne

/-- Settles O40: of the ways a step can end, only an accepting `EVAL` and `RST` change the view. -/
theorem onlyEvalAcceptWritesTheView : Obligations.OnlyEvalAcceptWritesTheView := by
  intro s t hst hne
  cases step_by hst with
  | rst hx hr => exact ⟨_, hx, .inl ⟨hr, rfl⟩⟩
  | accept hx hr hf hn hw hc => exact ⟨_, hx, .inr ⟨hr, hf, hn, _, hw, hc, rfl⟩⟩
  | query | reject | rxb | resume | idle => exact absurd rfl hne

/-- Settles O41: the two `EVAL` branches are the ones at a complete frame, and each emits one event. -/
theorem traceGrowsByOneAtEachEval : Obligations.TraceGrowsByOneAtEachEval := by
  intro s t hst
  refine ⟨fun e hx hr => ?word, fun i m hx => ?query⟩
  case word =>
    cases step_by hst with
    | query hx' _ => cases hx.symm.trans hx'
    | rst hx' hr' => cases hx.symm.trans hx'; simp [hr] at hr'
    | reject _ _ hf hn _ _ => exact ⟨fun _ => ⟨_, raiseFrameCorrupt_trace _ _⟩, fun h => absurd ⟨hf, hn⟩ h⟩
    | accept _ _ hf hn _ _ => exact ⟨fun _ => ⟨_, acceptFrame_trace _ _⟩, fun h => absurd ⟨hf, hn⟩ h⟩
    | rxb _ _ _ hn _ => exact ⟨fun h => absurd h.2 hn.ne, fun _ => rfl⟩
    | resume _ _ hf _ => exact ⟨fun h => by simp [hf] at h, fun _ => rfl⟩
    | idle _ _ hev _ _ => exact ⟨fun h => absurd h hev, fun _ => rfl⟩
  case query =>
    rw [step_query hx] at hst
    obtain ⟨-, f, rfl⟩ := exec_keyheld_next hst
    rfl

/-- Settles O44: in `RECOVERING` the branches of a step on a word are `RST`, `RESUME` and `IDLE`. -/
theorem recoveryEndsOnlyByResumeOrRst : Obligations.RecoveryEndsOnlyByResumeOrRst := by
  intro s t e hrec hx hst
  cases step_by hst with
  | query hx' _ => cases hx.symm.trans hx'
  | rst hx' hr => cases hx.symm.trans hx'; exact .inl ⟨hr, rfl⟩
  | resume hx' hr _ hu =>
    cases hx.symm.trans hx'
    exact .inr ⟨hr, rfl, rfl, rfl, rfl, iff_of_true rfl hu⟩
  | idle hx' hr _ _ hre =>
    cases hx.symm.trans hx'
    exact .inr ⟨hr, rfl, rfl, rfl, rfl, iff_of_false (by simp [hrec]) fun hu => hre ⟨hu, hrec⟩⟩
  | reject _ _ hf | accept _ _ hf | rxb _ _ hf => cases hrec.symm.trans hf

/-- A step's output wires and what it did to the trace (R70): the wires of an accepted frame, of a rejected one, or
none. Only `RST` shortens the trace. -/
inductive OutputsBy (s t : State) : Prop
  | pub {w : FrameWord} (hw : bufFrame s.buf = some w) (hp : t.wires.pub = some (unpackFrame w))
      (hq : t.wires.resyncReq = false) (ht : t.trace = s.trace ++ [.pub (unpackFrame w)])
  | resync (hp : t.wires.pub = none) (hq : t.wires.resyncReq = true) (ht : t.trace = s.trace ++ [.resync])
  | none (hp : t.wires.pub = none) (hq : t.wires.resyncReq = false) (ht : t.trace = s.trace ∨ t.trace = [])

/-- Each branch of a step drives the output wires of the event it emits: the step begins with no wire driven, and
neither the gate nor the decode drives an output wire. -/
theorem step_outputs {s t : State} (h : step s = .next t) : OutputsBy s t := by
  cases step_by h with
  | accept _ _ _ _ hw _ => exact .pub hw rfl rfl rfl
  | reject => exact .resync rfl rfl rfl
  | rst => exact .none rfl rfl (.inr rfl)
  | query | rxb | resume | idle => exact .none rfl rfl (.inl rfl)

/-- A mouse bus, read as two's complement, is the value published on it. -/
theorem pubMouseBus_sext16_toInt (p : BitVec 16) : (pubMouseBus (sext16 p)).toInt = sext16 p := by
  rw [pubMouseBus_sext16, toInt_eq_sext16]

/-- A trace that gained no event did not gain the event `o`. -/
theorem ne_append_event {tr tr' : List OutEvent} (h : tr' = tr ∨ tr' = []) (o : OutEvent) : tr' ≠ tr ++ [o] := by
  rcases h with rfl | rfl <;> simp

/-- Settles O42: the wires and the trace agree in each of the three ways a step can drive its outputs, and the published
mouse values are two's complement readings of the frame's patterns. -/
theorem outputWiresFollowTheEvents : Obligations.OutputWiresFollowTheEvents := by
  intro s t hst
  refine ⟨fun d => ?pub, fun d hd => ?buses, ?resync, rxReady_iff t⟩
  case pub =>
    cases step_outputs hst with
    | pub _ hp _ ht => simp [hp, ht, eq_comm]
    | resync hp _ ht => simp [hp, ht]
    | none hp _ ht => simp [hp, ne_append_event ht]
  case buses =>
    cases step_outputs hst with
    | pub hw hp _ _ =>
      cases hp.symm.trans hd
      exact ⟨⟨pubMouseBus_sext16_toInt _, pubMouseBus_sext16_toInt _, pubMouseBus_sext16_toInt _⟩, _, hw,
        pubMouseBus_sext16 _, pubMouseBus_sext16 _, pubMouseBus_sext16 _⟩
    | resync hp _ _ | none hp _ _ => cases hp.symm.trans hd
  case resync =>
    cases step_outputs hst with
    | pub _ _ hq ht => simp [hq, ht]
    | resync _ hq ht => simp [hq, ht]
    | none _ hq ht => simp [hq, ne_append_event ht]

end Sys2Proof.Machine
end

section
/-! The fields of a frame from its bytes (R61 to R63, R80 to R92): the frame word shifted by whole bytes is the value of
the bytes that are left, and a field is a slice of the first two or three of them. -/

namespace Sys2Proof.Machine

/-- Shifting a byte list's value by whole bytes drops those bytes. -/
theorem leNat_div (bs : List Byte) (k : Nat) : leNat bs / 2 ^ (8 * k) = leNat (bs.drop k) := by
  induction k generalizing bs with
  | zero => simp
  | succ k ih =>
    cases bs with
    | nil => simp [leNat]
    | cons b bs =>
      have hdiv : leNat (b :: bs) / 2 ^ 8 = leNat bs := by
        simp only [leNat]
        omega
      rw [Nat.mul_succ, Nat.add_comm, pow_add, ← Nat.div_div_eq_div_mul, hdiv, ih, List.drop_succ_cons]

/-- The value of the bytes from `k` on is byte `k`, below the rest. -/
theorem leNat_drop (B : Vector Byte 18) (k : Nat) (hk : k < 18) :
    leNat (B.toList.drop k) = B[k].toNat + 256 * leNat (B.toList.drop (k + 1)) := by
  rw [List.drop_eq_getElem_cons (by simpa using hk), leNat]
  simp

/-- A slice of the frame word that begins at bit `r` of byte `k`, read off the bytes from `k` on. -/
theorem slice_frameOf (B : Vector Byte 18) (k r n : Nat) :
    ((frameOf B.toList).extractLsb' (8 * k + r) n).toNat = leNat (B.toList.drop k) / 2 ^ r % 2 ^ n := by
  rw [slice_toNat, frameOf_toNat (by simp), pow_add, ← Nat.div_div_eq_div_mul, leNat_div]

/-- Putting bits above a number that lies below them is adding them. -/
theorem or_shiftLeft_eq_add {a i : Nat} (h : a < 2 ^ i) (b : Nat) : a ||| b <<< i = a + b * 2 ^ i := by
  rw [Nat.or_comm, ← Nat.shiftLeft_add_eq_or_of_lt h, Nat.shiftLeft_eq, Nat.add_comm]

theorem and_7FF (x : Nat) : x &&& 0x7FF = x % 2 ^ 11 := Nat.and_two_pow_sub_one_eq_mod x 11

theorem and_3 (x : Nat) : x &&& 0x3 = x % 2 ^ 2 := Nat.and_two_pow_sub_one_eq_mod x 2

section
variable (B : Vector Byte 18)

theorem fieldChRX_frameOf :
    fieldChRX (frameOf B.toList) = BitVec.ofNat 11 ((B[0].toNat ||| (B[1].toNat <<< 8)) &&& 0x7FF) := by
  have hslice : (fieldChRX (frameOf B.toList)).toNat = _ := slice_frameOf B 0 0 11
  apply BitVec.eq_of_toNat_eq
  rw [hslice, leNat_drop B 0 (by decide), leNat_drop B 1 (by decide), BitVec.toNat_ofNat, and_7FF,
    or_shiftLeft_eq_add B[0].isLt]
  omega

theorem fieldChRY_frameOf :
    fieldChRY (frameOf B.toList) = BitVec.ofNat 11 (((B[1].toNat >>> 3) ||| (B[2].toNat <<< 5)) &&& 0x7FF) := by
  have hslice : (fieldChRY (frameOf B.toList)).toNat = _ := slice_frameOf B 1 3 11
  apply BitVec.eq_of_toNat_eq
  rw [hslice, leNat_drop B 1 (by decide), leNat_drop B 2 (by decide), BitVec.toNat_ofNat, and_7FF,
    Nat.shiftRight_eq_div_pow, or_shiftLeft_eq_add (by omega)]
  omega

theorem fieldChLX_frameOf :
    fieldChLX (frameOf B.toList) = BitVec.ofNat 11
      (((B[2].toNat >>> 6) ||| (B[3].toNat <<< 2) ||| (B[4].toNat <<< 10)) &&& 0x7FF) := by
  have hslice : (fieldChLX (frameOf B.toList)).toNat = _ := slice_frameOf B 2 6 11
  apply BitVec.eq_of_toNat_eq
  rw [hslice, leNat_drop B 2 (by decide), leNat_drop B 3 (by decide), leNat_drop B 4 (by decide), BitVec.toNat_ofNat,
    and_7FF, Nat.shiftRight_eq_div_pow, or_shiftLeft_eq_add (a := B[2].toNat / 2 ^ 6) (by omega),
    or_shiftLeft_eq_add (by omega)]
  omega

theorem fieldChLY_frameOf :
    fieldChLY (frameOf B.toList) = BitVec.ofNat 11 (((B[4].toNat >>> 1) ||| (B[5].toNat <<< 7)) &&& 0x7FF) := by
  have hslice : (fieldChLY (frameOf B.toList)).toNat = _ := slice_frameOf B 4 1 11
  apply BitVec.eq_of_toNat_eq
  rw [hslice, leNat_drop B 4 (by decide), leNat_drop B 5 (by decide), BitVec.toNat_ofNat, and_7FF,
    Nat.shiftRight_eq_div_pow, or_shiftLeft_eq_add (by omega)]
  omega

theorem fieldSwR_frameOf : fieldSwR (frameOf B.toList) = BitVec.ofNat 2 ((B[5].toNat >>> 4) &&& 0x3) := by
  have hslice : (fieldSwR (frameOf B.toList)).toNat = _ := slice_frameOf B 5 4 2
  apply BitVec.eq_of_toNat_eq
  rw [hslice, leNat_drop B 5 (by decide), BitVec.toNat_ofNat, and_3, Nat.shiftRight_eq_div_pow]
  omega

theorem fieldSwL_frameOf : fieldSwL (frameOf B.toList) = BitVec.ofNat 2 ((B[5].toNat >>> 6) &&& 0x3) := by
  have hslice : (fieldSwL (frameOf B.toList)).toNat = _ := slice_frameOf B 5 6 2
  apply BitVec.eq_of_toNat_eq
  rw [hslice, leNat_drop B 5 (by decide), BitVec.toNat_ofNat, and_3, Nat.shiftRight_eq_div_pow]
  omega

/-- Eight bits at a byte's start are the byte. -/
theorem byte_slice_frameOf (k : Nat) (hk : k < 18) : (frameOf B.toList).extractLsb' (8 * k) 8 = B[k] := by
  apply BitVec.eq_of_toNat_eq
  rw [← Nat.add_zero (8 * k), slice_frameOf, leNat_drop B k hk]
  omega

/-- Sixteen bits at a byte's start are a little-endian pair of bytes. -/
theorem pair_slice_frameOf (k : Nat) (hk : k + 1 < 18) :
    ((frameOf B.toList).extractLsb' (8 * k) 16).toNat = B[k].toNat + 256 * B[k + 1].toNat := by
  rw [← Nat.add_zero (8 * k), slice_frameOf, leNat_drop B k (by omega), leNat_drop B (k + 1) hk]
  omega

/-- The pair by the byte formula of R64. -/
theorem pair_slice_frameOf_eq_or (k : Nat) (hk : k + 1 < 18) :
    (frameOf B.toList).extractLsb' (8 * k) 16 = BitVec.ofNat 16 (B[k].toNat ||| (B[k + 1].toNat <<< 8)) := by
  apply BitVec.eq_of_toNat_eq
  rw [pair_slice_frameOf B k hk, BitVec.toNat_ofNat, or_shiftLeft_eq_add B[k].isLt]
  omega

/-- A pair of bytes read as two's complement (D7). -/
theorem sext16_pair_slice_frameOf (k : Nat) (hk : k + 1 < 18) :
    sext16 ((frameOf B.toList).extractLsb' (8 * k) 16) =
      if B[k].toNat + 256 * B[k + 1].toNat < 32768 then (B[k].toNat : Int) + 256 * B[k + 1].toNat
      else (B[k].toNat : Int) + 256 * B[k + 1].toNat - 65536 := by
  rw [sext16, pair_slice_frameOf B k hk]
  push_cast
  rfl

end


/-- Settles O6: each channel's slice by its byte formula. -/
theorem channelExtractionsFromBytes : Obligations.ChannelExtractionsFromBytes := fun B s => by
  rw [← fieldChRX_frameOf, ← fieldChRY_frameOf, ← fieldChLX_frameOf, ← fieldChLY_frameOf]
  exact ⟨rfl, rfl, rfl, rfl⟩

/-- Settles O7: the two slices of byte 5. -/
theorem switchExtractionsFromBytes : Obligations.SwitchExtractionsFromBytes := fun B s => by
  rw [← fieldSwR_frameOf, ← fieldSwL_frameOf]
  exact ⟨rfl, rfl⟩

/-- Settles O8: the pairs at bytes 6, 8 and 10, as two's complement. -/
theorem mouseExtractionsFromBytes : Obligations.MouseExtractionsFromBytes := fun B s => by
  have hx := sext16_pair_slice_frameOf B 6 (by decide)
  have hy := sext16_pair_slice_frameOf B 8 (by decide)
  have hz := sext16_pair_slice_frameOf B 10 (by decide)
  dsimp only
  rw [← hx, ← hy, ← hz]
  exact ⟨rfl, rfl, rfl⟩

/-- Settles O9: bytes 12 and 13, and the pairs at bytes 14 and 16. -/
theorem buttonKeyReservedExtractionsFromBytes : Obligations.ButtonKeyReservedExtractionsFromBytes := fun B s => by
  have hl := byte_slice_frameOf B 12 (by decide)
  have hr := byte_slice_frameOf B 13 (by decide)
  have hk := pair_slice_frameOf_eq_or B 14 (by decide)
  have hres := pair_slice_frameOf_eq_or B 16 (by decide)
  rw [← hl, ← hr, ← hk, ← hres]
  exact ⟨rfl, rfl, rfl, rfl⟩

/-- Settles O10: the record is `unpackFrame`'s, its mouse fields `sext_16` of their slices. -/
theorem unpackGivesAllThirteenFields : Obligations.UnpackGivesAllThirteenFields := fun w s => by
  simp only [toInt_eq_sext16]
  rfl

end Sys2Proof.Machine
end

section
/-! `UNPACK` and `PACK` are inverse (R65, R95 (c), R96): the number that `PACK` builds has every field of the record at
its own slice, and a frame word is the sum of its slices. -/

namespace Sys2Proof.Machine

/-- One more slice of a number: its low `a + b` bits are its low `a` bits and the `b` bits above them. -/
theorem mod_two_pow_add (x a b : Nat) : x % 2 ^ (a + b) = x % 2 ^ a + x / 2 ^ a % 2 ^ b * 2 ^ a := by
  rw [pow_add, Nat.mod_mul, Nat.mul_comm (2 ^ a)]

/-- A frame word's number is the sum of the thirteen slices of R61, each at its offset. -/
theorem packNat_unpackFrame (w : FrameWord) : packNat (unpackFrame w) = w.toNat := by
  have hw : w.toNat % 2 ^ 144 = w.toNat := Nat.mod_eq_of_lt w.isLt
  rw [mod_two_pow_add _ 128 16, mod_two_pow_add _ 112 16, mod_two_pow_add _ 104 8, mod_two_pow_add _ 96 8,
    mod_two_pow_add _ 80 16, mod_two_pow_add _ 64 16, mod_two_pow_add _ 48 16, mod_two_pow_add _ 46 2,
    mod_two_pow_add _ 44 2, mod_two_pow_add _ 33 11, mod_two_pow_add _ 22 11, mod_two_pow_add _ 11 11] at hw
  simp only [packNat, unpackFrame, fieldChRX, fieldChRY, fieldChLX, fieldChLY, fieldSwR, fieldSwL, fieldMouseX,
    fieldMouseY, fieldMouseZ, fieldMousePressL, fieldMousePressR, fieldKeyMask, fieldReserved, u16_sext16, slice_toNat,
    pow_zero, Nat.div_one]
  exact hw

/-- A record as it comes back from its eighteen bytes: the mouse values are those of their 16-bit patterns. -/
def DecodedFrame.wrapMouse (d : DecodedFrame) : DecodedFrame :=
  { d with
    mouseX := sext16 (BitVec.ofNat 16 (u16 d.mouseX))
    mouseY := sext16 (BitVec.ofNat 16 (u16 d.mouseY))
    mouseZ := sext16 (BitVec.ofNat 16 (u16 d.mouseZ)) }

/-- In range, a mouse value is that of its pattern. -/
theorem DecodedFrame.wrapMouse_of_inRange {d : DecodedFrame} (h : d.InRange) : d.wrapMouse = d := by
  obtain ⟨hx, hy, hz⟩ := h
  simp only [DecodedFrame.wrapMouse, sext16_u16 hx, sext16_u16 hy, sext16_u16 hz]

theorem packNat_lt (d : DecodedFrame) : packNat d < 2 ^ 144 := by
  have hx := u16_lt d.mouseX
  have hy := u16_lt d.mouseY
  have hz := u16_lt d.mouseZ
  unfold packNat
  omega

/-- A slice of a packed record's frame word is that slice of the number `PACK` built. -/
theorem extract_frameOf_packFrame {d : DecodedFrame} {o n : Nat} {x : BitVec n}
    (h : packNat d / 2 ^ o % 2 ^ n = x.toNat) : (frameOf (packFrame d)).extractLsb' o n = x := by
  apply BitVec.eq_of_toNat_eq
  rw [slice_toNat, packFrame, frameOf_toNat (bytesOf_length 18 _), leNat_bytesOf, ← h]
  congr 2
  exact Nat.mod_eq_of_lt (packNat_lt d)

/-- The pattern of a signed value, as a number. -/
theorem toNat_ofNat_u16 (v : Int) : (BitVec.ofNat 16 (u16 v)).toNat = u16 v :=
  Nat.mod_eq_of_lt (u16_lt v)

/-- Every field of a packed record is at its own slice: the fields below it fit under its offset, and those above it are
multiples of what lies past its end. -/
theorem unpackFrame_packFrame (d : DecodedFrame) : unpackFrame (frameOf (packFrame d)) = d.wrapMouse := by
  have hx := u16_lt d.mouseX
  have hy := u16_lt d.mouseY
  have hz := u16_lt d.mouseZ
  have hX := toNat_ofNat_u16 d.mouseX
  have hY := toNat_ofNat_u16 d.mouseY
  have hZ := toNat_ofNat_u16 d.mouseZ
  have hpack := packNat.eq_1 d
  simp only [unpackFrame, DecodedFrame.wrapMouse, DecodedFrame.mk.injEq]
  refine ⟨?chRX, ?chRY, ?chLX, ?chLY, ?swR, ?swL, congrArg sext16 ?mouseX, congrArg sext16 ?mouseY,
    congrArg sext16 ?mouseZ, ?mousePressL, ?mousePressR, ?keyMask, ?reserved⟩
  all_goals exact extract_frameOf_packFrame (by omega)

/-- A packed mask comes back as it was. -/
theorem fieldKeyMask_packFrame (d : DecodedFrame) : fieldKeyMask (frameOf (packFrame d)) = d.keyMask :=
  congrArg DecodedFrame.keyMask (unpackFrame_packFrame d)

/-- Settles O11: a frame is the sum of its slices, and every field of a packed record is at its own slice. -/
theorem unpackAndPackAreInverse : Obligations.UnpackAndPackAreInverse := by
  refine ⟨fun bs hbs => ?packUnpack, fun d hd => ?unpackPack, unpackFrame_inRange⟩
  case packUnpack => rw [packFrame, packNat_unpackFrame, bytesOf_frameOf hbs]
  case unpackPack => rw [unpackFrame_packFrame, DecodedFrame.wrapMouse_of_inRange hd]

theorem keyHeldBit_physical {i : Nat} (mask : BitVec 16) (h : i < 16) : keyHeldBit i mask = some (mask.getLsbD i) :=
  if_pos h

theorem keyHeldBit_edge {i : Nat} (mask : BitVec 16) (h1 : 16 ≤ i) (h2 : i < 20) : keyHeldBit i mask = some false := by
  rw [keyHeldBit, if_neg (Nat.not_lt.mpr h1), if_pos h2]

/-- A mask with the one bit of a physical key reports that key and no other. -/
theorem keyHeldBit_singleKey {i j : Nat} (hi : i < 16) (hj : j < 20) :
    keyHeldBit j (BitVec.ofNat 16 (2 ^ i)) = some (decide (j = i)) := by
  by_cases h : j < 16
  · rw [keyHeldBit_physical _ h, BitVec.getLsbD_ofNat, Nat.testBit_two_pow]
    simp [h, eq_comm]
  · rw [keyHeldBit_edge _ (Nat.le_of_not_lt h) hj, decide_eq_false (by omega)]

/-- Settles O12: `UNPACK`'s records are in range, so `PACK` keeps them; and `PACK` keeps every mask. -/
theorem roundTripStabilityAndSingleKey : Obligations.RoundTripStabilityAndSingleKey := by
  refine ⟨fun w => ?stable, fun d i j hi hj => ?singleKey⟩
  case stable => exact unpackAndPackAreInverse.2.1 _ (unpackFrame_inRange w)
  case singleKey =>
    rw [fieldKeyMask_packFrame]
    exact keyHeldBit_singleKey hi hj

/-- Settles O13: the three parts of the index's domain. -/
theorem keyheldOverItsWholeDomain : Obligations.KeyheldOverItsWholeDomain := by
  intro i mask s
  refine ⟨fun hi => ?physical, fun h1 h2 => ?edge, fun hi => exec_keyheld_refused mask hi s⟩
  case physical =>
    have hbit : mask.getLsbD i = decide ((mask.toNat >>> i) &&& 1 = 1) := by
      rw [BitVec.getLsbD, Nat.testBit_eq_decide_div_mod_eq, Nat.shiftRight_eq_div_pow, Nat.and_one_is_mod]
    rw [← hbit]
    exact exec_keyheld_some (keyHeldBit_physical mask (by omega)) s
  case edge => exact exec_keyheld_some (keyHeldBit_edge mask h1 (by omega)) s

/-- Settles O14: the list of R68 is finite, and the mask is the sixteen frame bits from 112 on. -/
theorem keyIsFrameBit : Obligations.KeyIsFrameBit := by
  unfold Obligations.KeyIsFrameBit
  intro physical edges
  have hphysical (k : Key) : keyIndex k < 16 ↔ k ∈ physical := by cases k <;> decide
  refine ⟨fun k => ?position, by decide, hphysical, fun w k hk => ?frameBit⟩
  case position => cases k <;> rfl
  case frameBit =>
    have hlt : keyIndex k < 16 := (hphysical k).mpr hk
    rw [keyHeldBit_physical _ hlt, fieldKeyMask, BitVec.getLsbD_extractLsb']
    simp [hlt]

end Sys2Proof.Machine
end

section
/-! The validate family (R100 to R107, R141) and the purity of the FRAME144 operations (R95 (a)). -/

namespace Sys2Proof.Machine

/-- The wires that a FRAME144 operation drives, observed from the reset state. -/
def wiresDriven (i : Instr) : Wires :=
  match exec i State.reset with
  | .next t => t.wires
  | .fault _ => Wires.quiet
  | .refused _ => Wires.quiet

/-- A FRAME144 operation, from any state, drives its own wire as it does from the reset state. -/
theorem exec_eq_withOwn {i : Instr} (h : i.format = .frame144) (s : State) :
    exec i s = .next { s with wires := Wires.withOwn i (wiresDriven i) s.wires } := by
  cases i <;> simp only [Instr.format, reduceCtorEq] at h <;> rfl

/-- A FRAME144 operation's own wire is driven. -/
theorem withOwn_wiresDriven_ne_quiet {i : Instr} (h : i.format = .frame144) :
    Wires.withOwn i (wiresDriven i) Wires.quiet ≠ Wires.quiet := by
  intro hq
  cases i <;> simp only [Instr.format, reduceCtorEq] at h <;> cases hq

/-- Settles O15: the value driven is the one observed from the reset state. -/
theorem frameOperationsArePure : Obligations.FrameOperationsArePure := fun i h =>
  ⟨wiresDriven i, withOwn_wiresDriven_ne_quiet h, exec_eq_withOwn h⟩

/-- A channel's check, on the number that its slice of the frame word is. -/
theorem channelBad_slice (w : FrameWord) (o : Nat) :
    channelBad (w.extractLsb' o 11) = decide (w.toNat / 2 ^ o % 2 ^ 11 < 364 ∨ w.toNat / 2 ^ o % 2 ^ 11 > 1684) := by
  rw [channelBad, slice_toNat, Bool.decide_or]

/-- A switch's check, on the number that its slice of the frame word is. -/
theorem switchBad_slice (w : FrameWord) (o : Nat) :
    switchBad (w.extractLsb' o 2) = decide (w.toNat / 2 ^ o % 2 ^ 2 = 0) := by
  rw [switchBad, slice_toNat]

/-- Settles O16: each check is `channelBad` or `switchBad` of its own slice. -/
theorem checksTestTheirFields : Obligations.ChecksTestTheirFields := fun w s => by
  dsimp only
  rw [← channelBad_slice, ← channelBad_slice, ← channelBad_slice, ← channelBad_slice, ← switchBad_slice,
    ← switchBad_slice]
  exact ⟨rfl, rfl, rfl, rfl, rfl, rfl⟩

/-- The gate passes a frame exactly when none of the six checks objects (R106). -/
theorem corruptFrame_eq_false_iff (w : FrameWord) :
    corruptFrame w = false ↔ ChannelOk (fieldChRX w) ∧ ChannelOk (fieldChRY w) ∧ ChannelOk (fieldChLX w) ∧
      ChannelOk (fieldChLY w) ∧ fieldSwR w ≠ 0 ∧ fieldSwL w ≠ 0 := by
  simp only [corruptFrame, Bool.or_eq_false_iff, and_assoc, badRx, badRy, badLx, badLy, badSwr, badSwl,
    channelBad_eq_false_iff, switchBad_eq_false_iff]

/-- A slice is not 0 exactly when its number is not. -/
theorem slice_ne_zero_iff (w : FrameWord) (o n : Nat) : w.extractLsb' o n ≠ 0 ↔ w.toNat / 2 ^ o % 2 ^ n ≠ 0 := by
  rw [← slice_toNat, ne_eq, ne_eq, ← BitVec.toNat_inj]
  simp

/-- Settles O17: the gate's condition, on the numbers that the six slices are. -/
theorem corruptExactlyOutsideTheGate : Obligations.CorruptExactlyOutsideTheGate := by
  intro w s
  refine ⟨corruptFrame w, rfl, (corruptFrame_eq_false_iff w).trans ?_⟩
  simp only [ChannelOk, fieldChRX, fieldChRY, fieldChLX, fieldChLY, fieldSwR, fieldSwL, slice_ne_zero_iff, slice_toNat]

/-- Frames that agree below bit 48 have the same slices there. -/
theorem slice_congr {w w' : FrameWord} (h : ∀ k, k < 48 → w.getLsbD k = w'.getLsbD k) {o n : Nat} (ho : o + n ≤ 48) :
    w.extractLsb' o n = w'.extractLsb' o n := by
  apply BitVec.eq_of_getLsbD_eq
  intro i hi
  rw [BitVec.getLsbD_extractLsb', BitVec.getLsbD_extractLsb', h (o + i) (by omega)]

/-- The verdict depends on the bits below 48 alone: all six slices that the gate tests lie there (R106). -/
theorem corruptFrame_congr {w w' : FrameWord} (h : ∀ k, k < 48 → w.getLsbD k = w'.getLsbD k) :
    corruptFrame w = corruptFrame w' := by
  have hrx : fieldChRX w = fieldChRX w' := slice_congr h (by decide)
  have hry : fieldChRY w = fieldChRY w' := slice_congr h (by decide)
  have hlx : fieldChLX w = fieldChLX w' := slice_congr h (by decide)
  have hly : fieldChLY w = fieldChLY w' := slice_congr h (by decide)
  have hswr : fieldSwR w = fieldSwR w' := slice_congr h (by decide)
  have hswl : fieldSwL w = fieldSwL w' := slice_congr h (by decide)
  simp only [corruptFrame, badRx, badRy, badLx, badLy, badSwr, badSwl, hrx, hry, hlx, hly, hswr, hswl]

/-- Settles O18: the bits below 48 are those of the first six bytes. -/
theorem gateReadsTheFirstSixBytesOnly : Obligations.GateReadsTheFirstSixBytesOnly := by
  intro B C h
  refine corruptFrame_congr fun k hk => ?_
  have hbyte : B[k / 8] = C[k / 8] := h ⟨k / 8, by omega⟩
  have hlt : k / 8 < 18 := by omega
  rw [frameOf_getLsbD _ k (by omega), frameOf_getLsbD _ k (by omega)]
  simp [List.getD_eq_getElem?_getD, hlt, hbyte]

/-- The six checks of a frame, in the order of rules R100 to R105. -/
def checkOps (w : FrameWord) : List Instr := [.chkRx w, .chkRy w, .chkLx w, .chkLy w, .chkSwr w, .chkSwl w]

/-- Two checks of one frame, run one after the other, may change places: each drives a wire of its own. -/
theorem runOps_check_swap {w : FrameWord} {i j : Instr} (hi : i ∈ checkOps w) (hj : j ∈ checkOps w) (is : List Instr)
    (s : State) : runOps (i :: j :: is) s = runOps (j :: i :: is) s := by
  simp only [checkOps, List.mem_cons, List.not_mem_nil, or_false] at hi hj
  rcases hi with rfl | rfl | rfl | rfl | rfl | rfl <;> rcases hj with rfl | rfl | rfl | rfl | rfl | rfl <;> rfl

/-- Operations of which any two may change places run alike in any order. -/
theorem runOps_perm {l l' : List Instr} (h : l.Perm l')
    (hswap : ∀ i ∈ l, ∀ j ∈ l, ∀ is s, runOps (i :: j :: is) s = runOps (j :: i :: is) s) (s : State) :
    runOps l s = runOps l' s := by
  induction h generalizing s with
  | nil => rfl
  | cons x _ ih =>
    have htail := ih fun i hi j hj => hswap i (List.mem_cons_of_mem x hi) j (List.mem_cons_of_mem x hj)
    rw [runOps_cons, runOps_cons]
    cases exec x s with
    | next t => exact htail t
    | fault r => rfl
    | refused r => rfl
  | swap x y l => exact hswap y (by simp) x (by simp) l s
  | trans h₁ _ ih₁ ih₂ =>
    rw [ih₁ hswap, ih₂ fun i hi j hj => hswap i (h₁.mem_iff.mpr hi) j (h₁.mem_iff.mpr hj)]

/-- Settles O19: any two of the six checks may change places. -/
theorem checkOrderIsImmaterial : Obligations.CheckOrderIsImmaterial := by
  intro w l s h
  have hmem : ∀ i ∈ l, i ∈ checkOps w := fun _ => h.mem_iff.mp
  exact runOps_perm h (fun i hi j hj => runOps_check_swap (hmem i hi) (hmem j hj)) s

/-- A 6-bit vector built from six bits, bit by bit, and when it is 0. -/
theorem sixBits (a b c d e f : Bool) :
    let v := BitVec.ofNat 6 (a.toNat + 2 * b.toNat + 4 * c.toNat + 8 * d.toNat + 16 * e.toNat + 32 * f.toNat)
    (v.getLsbD 0 = a ∧ v.getLsbD 1 = b ∧ v.getLsbD 2 = c ∧ v.getLsbD 3 = d ∧ v.getLsbD 4 = e ∧ v.getLsbD 5 = f) ∧
      ((a || b || c || d || e || f) = true ↔ v ≠ 0) := by
  revert a b c d e f
  decide

/-- Settles O20: the vector is built from the six checks, and raising drops it. -/
theorem causeVectorIsTheSixChecks : Obligations.CauseVectorIsTheSixChecks := by
  intro w
  obtain ⟨hbits, hzero⟩ := sixBits (badRx w) (badRy w) (badLx w) (badLy w) (badSwr w) (badSwl w)
  exact ⟨hbits, hzero, fun _ _ => rfl⟩

end Sys2Proof.Machine
end

section
/-! Counting the frames that pass the gate (R110): a word made of fields, each restricted on its own, has as many values
as the product of the fields' counts. -/

namespace Sys2Proof.Machine

/-- A word is its low `n` bits and the rest. -/
def splitLow {k n m : Nat} (hk : k = n + m) : BitVec k ≃ BitVec n × BitVec m where
  toFun w := (w.extractLsb' 0 n, w.extractLsb' n m)
  invFun p := BitVec.ofNat k (p.1.toNat + p.2.toNat * 2 ^ n)
  left_inv w := by
    subst hk
    apply BitVec.eq_of_toNat_eq
    have hw : w.toNat % 2 ^ (n + m) = w.toNat := Nat.mod_eq_of_lt w.isLt
    simp only [BitVec.extractLsb'_toNat, BitVec.toNat_ofNat, Nat.shiftRight_eq_div_pow, pow_zero, Nat.div_one]
    rw [← mod_two_pow_add, Nat.mod_mod]
    exact hw
  right_inv p := by
    obtain ⟨a, b⟩ := p
    subst hk
    have hlt : a.toNat + b.toNat * 2 ^ n < 2 ^ (n + m) := by
      rw [pow_add]
      have ha := a.isLt
      have hb : b.toNat + 1 ≤ 2 ^ m := b.isLt
      calc a.toNat + b.toNat * 2 ^ n < (b.toNat + 1) * 2 ^ n := by rw [Nat.add_mul]; omega
        _ ≤ 2 ^ n * 2 ^ m := by rw [Nat.mul_comm (2 ^ n)]; exact Nat.mul_le_mul_right _ hb
    refine Prod.ext (BitVec.eq_of_toNat_eq ?_) (BitVec.eq_of_toNat_eq ?_)
    · simp only [BitVec.extractLsb'_toNat, BitVec.toNat_ofNat, Nat.mod_eq_of_lt hlt, Nat.shiftRight_zero,
        Nat.add_mul_mod_self_right, Nat.mod_eq_of_lt a.isLt]
    · simp only [BitVec.extractLsb'_toNat, BitVec.toNat_ofNat, Nat.mod_eq_of_lt hlt, Nat.shiftRight_eq_div_pow,
        Nat.add_mul_div_right _ _ (Nat.two_pow_pos n), Nat.div_eq_of_lt a.isLt, Nat.zero_add, Nat.mod_eq_of_lt b.isLt]

/-- Words whose two parts are restricted independently. -/
theorem card_split {k n m : Nat} (hk : k = n + m) (P : BitVec n → Prop) (Q : BitVec m → Prop) :
    Nat.card { w : BitVec k // P (w.extractLsb' 0 n) ∧ Q (w.extractLsb' n m) } =
      Nat.card { a // P a } * Nat.card { b // Q b } := by
  rw [← Nat.card_prod]
  exact Nat.card_congr (((splitLow hk).subtypeEquiv fun _ => Iff.rfl).trans Equiv.subtypeProdEquivProd)

/-- `c` fields of `n` bits, each restricted by `P`, below `m` bits restricted by `Q`. -/
def FieldsOk {n m : Nat} (P : BitVec n → Prop) (Q : BitVec m → Prop) : (c : Nat) → BitVec (m + n * c) → Prop
  | 0, w => Q w
  | c + 1, w => P (w.extractLsb' 0 n) ∧ FieldsOk P Q c (w.extractLsb' n (m + n * c))

theorem card_fieldsOk {n m : Nat} (P : BitVec n → Prop) (Q : BitVec m → Prop) (c : Nat) :
    Nat.card { w // FieldsOk P Q c w } = Nat.card { a // P a } ^ c * Nat.card { b // Q b } := by
  induction c with
  | zero => rw [pow_zero, Nat.one_mul]; rfl
  | succ c ih =>
    have hwidth : m + n * (c + 1) = n + (m + n * c) := by rw [Nat.mul_succ]; omega
    rw [pow_succ', Nat.mul_assoc, ← ih]
    exact card_split hwidth P (FieldsOk P Q c)

/-- A slice of a slice is a slice of the whole. -/
theorem extract_extract {k : Nat} (w : BitVec k) {o n i m : Nat} (h : i + m ≤ n) :
    (w.extractLsb' o n).extractLsb' i m = w.extractLsb' (o + i) m := by
  apply BitVec.eq_of_getLsbD_eq
  intro j hj
  have hij : i + j < n := by omega
  simp [hj, hij, Nat.add_assoc]

/-- Two switch codes other than 0, below 96 free bits. -/
abbrev SwitchesOk : BitVec 100 → Prop := FieldsOk (n := 2) (m := 96) (· ≠ 0) (fun _ => True) 2

/-- The gate's condition restricts fields one by one: four channels, below the two switch codes. -/
theorem corruptFrame_eq_false_iff_fieldsOk (w : FrameWord) :
    corruptFrame w = false ↔ FieldsOk (n := 11) ChannelOk SwitchesOk 4 w := by
  rw [corruptFrame_eq_false_iff]
  simp (disch := decide) only [SwitchesOk, FieldsOk, extract_extract, and_true]
  rfl

/-- The channel values that the gate accepts are the numbers from 364 to 1684. -/
def channelOkEquiv : { v : BitVec 11 // ChannelOk v } ≃ Set.Icc 364 1684 where
  toFun v := ⟨v.1.toNat, v.2⟩
  invFun x := ⟨BitVec.ofNat 11 x.1, by
    obtain ⟨x, hlo, hhi⟩ := x
    simp only [ChannelOk, BitVec.toNat_ofNat]
    omega⟩
  left_inv v := by simp
  right_inv x := by
    obtain ⟨x, hlo, hhi⟩ := x
    exact Subtype.ext (Nat.mod_eq_of_lt (by omega : x < 2 ^ 11))

theorem card_channelOk : Nat.card { v : BitVec 11 // ChannelOk v } = 1321 := by
  rw [Nat.card_congr channelOkEquiv]
  simp

theorem card_switchOk : Nat.card { v : BitVec 2 // v ≠ 0 } = 3 := by
  rw [Nat.card_eq_fintype_card]
  decide

theorem card_free (m : Nat) : Nat.card { _v : BitVec m // True } = 2 ^ m := by
  rw [Nat.card_congr ((Equiv.subtypeUnivEquiv fun _ => trivial).trans BitVec.equivFin.toEquiv), Nat.card_fin]

/-- Settles O21: the count is the product of the fields' counts. -/
theorem acceptedFramesCount : Obligations.AcceptedFramesCount :=
  calc Nat.card { w : FrameWord // corruptFrame w = false }
    _ = Nat.card { w : BitVec (100 + 11 * 4) // FieldsOk ChannelOk SwitchesOk 4 w } :=
      Nat.card_congr (Equiv.subtypeEquivRight corruptFrame_eq_false_iff_fieldsOk)
    _ = Nat.card { v : BitVec 11 // ChannelOk v } ^ 4 * Nat.card { v // SwitchesOk v } := card_fieldsOk _ _ 4
    _ = Nat.card { v : BitVec 11 // ChannelOk v } ^ 4 *
        (Nat.card { v : BitVec 2 // v ≠ 0 } ^ 2 * Nat.card { _v : BitVec 96 // True }) :=
      congrArg _ (card_fieldsOk (n := 2) (m := 96) (· ≠ 0) (fun _ => True) 2)
    _ = 1321 ^ 4 * 3 ^ 2 * 2 ^ 96 := by rw [card_channelOk, card_switchOk, card_free, Nat.mul_assoc]

end Sys2Proof.Machine
end

section
/-! The decoder and the encoder (R72): the rows that a frame selects, each row's own bytes, and the word placed through
the interface (log 11). -/

namespace Sys2Proof.Machine

/-- Settles O34: the words are decoded and the frame unpacked by evaluation. -/
theorem specWordsDecodeAsListed : Obligations.SpecWordsDecodeAsListed :=
  ⟨by decide, by decide, by decide, by decide, by decide, by decide, by decide⟩

/-- The twenty-one rows of a frame have twenty-one names. -/
theorem frameOps_mnemonics_nodup (w : FrameWord) : ((frameOps w).map Instr.mnemonic).Nodup := by
  simp [frameOps, Instr.mnemonic]

theorem eq_of_mem_frameOps_of_mnemonic {i j : Instr} {w : FrameWord} (hi : i ∈ frameOps w) (hj : j ∈ frameOps w)
    (h : i.mnemonic = j.mnemonic) : i = j :=
  List.inj_on_of_nodup_map (frameOps_mnemonics_nodup w) hi hj h

/-- A frame's rows are FRAME144 operations, and the frame is their image. -/
theorem encode_of_mem_frameOps {i : Instr} {w : FrameWord} (h : i ∈ frameOps w) :
    i.format = .frame144 ∧ encode i = bytesOf 18 w.toNat := by
  revert i
  simp [frameOps, Instr.format, encode]

/-- A FRAME144 operation is a row of its operand. -/
theorem exists_mem_frameOps {i : Instr} (h : i.format = .frame144) : ∃ w, i ∈ frameOps w := by
  cases i <;> simp only [Instr.format, reduceCtorEq] at h <;> exact ⟨‹FrameWord›, by simp [frameOps]⟩

/-- A frame's rows are exactly the FRAME144 operations whose image is the frame. -/
theorem mem_frameOps_iff (i : Instr) (w : FrameWord) :
    i ∈ frameOps w ↔ i.format = .frame144 ∧ encode i = bytesOf 18 w.toNat := by
  refine ⟨encode_of_mem_frameOps, fun ⟨hfmt, henc⟩ => ?_⟩
  obtain ⟨w', hmem⟩ := exists_mem_frameOps hfmt
  have hbytes := (encode_of_mem_frameOps hmem).2.symm.trans henc
  have hw : w' = w := by rw [← frameOf_bytesOf w', hbytes, frameOf_bytesOf]
  exact hw ▸ hmem

/-- Eighteen bytes are a frame. -/
theorem decodePacket_frame {bs : List Byte} (h : bs.length = 18) : decodePacket bs = .ok (.frame (frameOf bs)) := by
  unfold decodePacket
  split
  · simp at h
  · simp at h
  · exact if_pos h

/-- Eighteen bytes select the rows of their frame, in every loop state. -/
theorem decode_frame {bs : List Byte} (h : bs.length = 18) (f : Fsm) (n : Nat) :
    decode f n bs = .ok (frameOps (frameOf bs)) :=
  decode_of_packet (decodePacket_frame h) f n

/-- Settles O36: the rows of the frame that the bytes are. -/
theorem everyFrameSelectsTheFrameOperations : Obligations.EveryFrameSelectsTheFrameOperations := by
  intro bs f cnt h
  refine ⟨frameOps (frameOf bs), decode_frame h f cnt, rfl, frameOps_mnemonics_nodup _, fun i => ?_⟩
  rw [mem_frameOps_iff, bytesOf_frameOf h]

/-- An instruction's own bytes select it in its own loop state, and no other of its mnemonic. -/
abbrev SelectedByOwnBytes (i : Instr) : Prop :=
  ∃ l, decode (homeOf i).1 (homeOf i).2 (encode i) = .ok l ∧ i ∈ l ∧ ∀ j ∈ l, j.mnemonic = i.mnemonic → j = i

/-- An instruction that its bytes select alone. -/
theorem selectedByOwnBytes_of_alone {i : Instr} (h : decode (homeOf i).1 (homeOf i).2 (encode i) = .ok [i]) :
    SelectedByOwnBytes i :=
  ⟨[i], h, List.mem_singleton.mpr rfl, fun _ hj _ => List.mem_singleton.mp hj⟩

/-- A frame's rows: their bytes are the frame, and their names tell them apart. -/
theorem selectedByOwnBytes_of_frame144 {i : Instr} (h : i.format = .frame144) : SelectedByOwnBytes i := by
  obtain ⟨w, hmem⟩ := exists_mem_frameOps h
  refine ⟨frameOps w, ?_, hmem, fun j hj hname => eq_of_mem_frameOps_of_mnemonic hj hmem hname⟩
  rw [(encode_of_mem_frameOps hmem).2, decode_frame (bytesOf_length 18 _), frameOf_bytesOf]

/-- Three bytes with a defined index are a query (log 12). -/
theorem decodePacket_query {k : Nat} (mask : BitVec 16) (h : k < 20) :
    decodePacket (encode (.keyheld k mask)) = .ok (.input (.query k mask)) := by
  have hk : (BitVec.ofNat 8 k).toNat = k := by
    rw [BitVec.toNat_ofNat]
    omega
  have hmask : BitVec.ofNat 16 (leNat (bytesOf 2 mask.toNat)) = mask := by
    apply BitVec.eq_of_toNat_eq
    rw [leNat_bytesOf, BitVec.toNat_ofNat]
    omega
  show (if (BitVec.ofNat 8 k).toNat < 20 then
    (Except.ok (.input (.query (BitVec.ofNat 8 k).toNat (BitVec.ofNat 16 (leNat (bytesOf 2 mask.toNat))))) :
      Except DecodeReject Packet) else _) = _
  rw [hk, if_pos h, hmask]

theorem evtMon_evtWordOf (r m u v : Bool) (b : Byte) : evtMon (evtWordOf r m u v b) = m := by
  have hm := m.toNat_lt
  have hu := u.toNat_lt
  have hv := v.toNat_lt
  exact getLsbD_ofNat_evtWord (by decide) (by omega)

/-- The word of a byte: `rx_valid` and the byte, every other wire 0. -/
theorem ofNat_rxbWord (b : Byte) : BitVec.ofNat 12 (0x100 + b.toNat) = evtWordOf false false false true b := by
  simp [evtWordOf]

theorem decode_encode_rxb (b : Byte) : decode .reading 0 (encode (.rxb b)) = .ok [.rxb b] := by
  have hp : decodePacket (encode (.rxb b)) = .ok (.input (.evt (evtWordOf false false false true b))) := by
    rw [← ofNat_rxbWord]
    exact decodePacket_bytesOf_two (by omega)
  have hs := selectEvt_rxb (n := 0) (evtRst_evtWordOf false false false true b)
    (evtRxValid_evtWordOf false false false true b) (by decide)
  rw [decode_of_packet hp, rowsOf_evt_op hs, monOps, evtMon_evtWordOf, evtRxData_evtWordOf]
  rfl

/-- Settles O35: a FRAME144 row shares its bytes with rows of other names, the two outcomes of `EVAL` with each other,
`MON` accompanies `IDLE`, and every other instruction is selected alone. -/
theorem decodeOfEncodeGivesTheInstruction : Obligations.DecodeOfEncodeGivesTheInstruction := by
  intro i hwf
  by_cases hfmt : i.format = .frame144
  · exact selectedByOwnBytes_of_frame144 hfmt
  cases i with
  | keyheld k mask =>
    exact selectedByOwnBytes_of_alone (decode_of_packet (decodePacket_query mask (of_decide_eq_true hwf)) _ _)
  | rxb b => exact selectedByOwnBytes_of_alone (decode_encode_rxb b)
  | evalAccept => exact ⟨[.evalAccept, .evalReject], by decide, by simp, by simp [Instr.mnemonic]⟩
  | evalReject => exact ⟨[.evalAccept, .evalReject], by decide, by simp, by simp [Instr.mnemonic]⟩
  | resume => exact selectedByOwnBytes_of_alone (by decide)
  | mon => exact ⟨[.mon, .idle], by decide, by simp, by simp [Instr.mnemonic]⟩
  | idle => exact selectedByOwnBytes_of_alone (by decide)
  | rst => exact selectedByOwnBytes_of_alone (by decide)
  | _ => exact absurd rfl hfmt

/-- The one row an event word is read as runs as what the word selects in its home state: `MON` is read for `IDLE` only,
and both are the identity. -/
theorem exists_select_evtRow (e : EvtWord) (s : State) :
    ∃ j, selectEvt (evtHome e) 0 e = .op j ∧ exec (evtRow e) s = exec j s := by
  cases hs : selectEvt (evtHome e) 0 e with
  | eval =>
    rcases selectEvt_cases (evtHome e) 0 e with ⟨_, h⟩ | ⟨_, _, hn, _⟩ | ⟨_, _, _, _, h⟩ | ⟨_, _, _, h⟩ |
      ⟨_, _, _, _, h⟩
    case inr.inl => exact absurd hn (by decide)
    all_goals cases hs.symm.trans h
  | op j =>
    refine ⟨j, rfl, ?_⟩
    simp only [evtRow, hs]
    split
    next h => cases h; split <;> rfl
    next h => cases h; rfl
    next h => cases h

/-- Placing a word makes it the next item. -/
theorem placePacket_evt_input (e : EvtWord) (s : State) :
    (placePacket (.input (.evt e)) s).input = .evt e :: s.input := by
  simp only [placePacket]
  split <;> rfl

/-- Placing a word makes a loop state in which it selects what it selects in its home state. -/
theorem selectEvt_placePacket (e : EvtWord) (s : State) :
    selectEvt (placePacket (.input (.evt e)) s).fsm (placePacket (.input (.evt e)) s).cnt e =
      selectEvt (evtHome e) 0 e := by
  simp only [placePacket]
  split
  next h => exact h
  next => rfl

/-- Settles O37: the placed word is read by `evtRow`, and selects that row's operation in the state made for it. -/
theorem placedWordRunsNext : Obligations.PlacedWordRunsNext := by
  intro s w i hw hi
  have hp : decodePacket (tableBytes 16 w) = .ok (.input (.evt (BitVec.ofNat 12 w))) := decodePacket_bytesOf_two hw
  have hcond : w < 2 ^ 16 ∧ 16 ≤ Config.frameBits := ⟨by omega, by decide⟩
  have hrow : evtRow (BitVec.ofNat 12 w) = i := by
    simp only [decodeTableWord, if_pos hcond, hp] at hi
    exact Option.some.inj hi
  have hplace : s.withFetchWord 16 w = placePacket (.input (.evt (BitVec.ofNat 12 w))) s := by
    simp only [State.withFetchWord, if_pos hcond, hp]
  subst hrow
  rw [hplace]
  generalize BitVec.ofNat 12 w = e
  have hin := placePacket_evt_input e s
  have hbegin : beginStep (placePacket (.input (.evt e)) s) =
      { placePacket (.input (.evt e)) s with input := s.input, wires := Wires.quiet } := by
    rw [beginStep, hin, List.tail_cons]
  obtain ⟨j, hj, hexec⟩ := exists_select_evtRow e (beginStep (placePacket (.input (.evt e)) s))
  have hx : nextInput (placePacket (.input (.evt e)) s) = .evt e := by rw [nextInput, hin]
  rw [step_op hx ((selectEvt_placePacket e s).trans hj), ← hexec, hbegin]

end Sys2Proof.Machine
end

section
/-! The frame buffer as little-endian bytes (R6, R7, R40, R41). -/

namespace Sys2Proof.Machine

/-- A read of bytes inside the buffer is their little-endian value. -/
theorem memRead_of_bytes {m : Memory} {a : Nat} {bs : List Byte} (ha : a + bs.length ≤ 18)
    (h : ∀ i, i < bs.length → bufRead m (a + i) = bs[i]?) : memRead m a bs.length = some (leNat bs) := by
  rw [memRead, if_pos ha, bufBytes_of_read h]
  rfl

/-- Settles O38: the cells hold the eighteen bytes whose frame the word is. -/
theorem bufferIsLittleEndian : Obligations.BufferIsLittleEndian := by
  intro m w hw
  obtain ⟨bs, hl, rfl, hread⟩ := exists_bytes_of_bufFrame hw
  have hcell : ∀ a (ha : a < 18), bufRead m a = some bs[a] := fun a ha => by
    rw [hread a ha, List.getElem?_eq_getElem]
  refine ⟨fun k hk => ?bit, fun a ha => ?pair, ?whole⟩
  case bit =>
    refine ⟨bs[k / 8], hcell _ (by omega), ?_⟩
    rw [frameOf_getLsbD bs k hk, List.getD_eq_getElem]
  case pair =>
    refine ⟨bs[a], bs[a + 1], hcell a (by omega), hcell (a + 1) (by omega), ?_⟩
    have hpair := memRead_of_bytes (m := m) (a := a) (bs := [bs[a], bs[a + 1]]) ha fun i hi => by
      match i, hi with
      | 0, _ => exact hcell a (by omega)
      | 1, _ => exact hcell (a + 1) (by omega)
    simpa [leNat] using hpair
  case whole =>
    have hall := memRead_of_bytes (m := m) (a := 0) (bs := bs) (by omega) fun i hi => by
      rw [Nat.zero_add]
      exact hread i (by omega)
    rw [frameOf_toNat hl, ← hall, hl]

end Sys2Proof.Machine
end

section
/-! Runs over scripts (R71, R129): bytes received one by one, a frame judged, corrupted frames one after another. -/

namespace Sys2Proof.Machine

/-- A step on the word of a byte, below the counter's bound, receives the byte. -/
theorem step_wordRxb {s : State} {b : Byte} (hx : nextInput s = wordRxb b) (hf : s.fsm = .reading) (hn : s.cnt < 18) :
    step s = .next (setCnt (s.cnt + 1) (setBuf (bufWrite s.buf s.cnt b) (beginStep s))) := by
  replace hx : nextInput s = .evt (evtWordOf false false false true b) := by rw [hx, wordRxb, ofNat_rxbWord]
  have hs : selectEvt s.fsm s.cnt (evtWordOf false false false true b) = .op (.rxb b) := by
    rw [hf, selectEvt_rxb (evtRst_evtWordOf ..) (evtRxValid_evtWordOf ..) hn, evtRxData_evtWordOf]
  rw [step_op hx hs]
  exact exec_rxb_enabled b hf hn

/-- The bytes `bs` have been received from `s` on, and `rest` is still presented. -/
structure Received (s t : State) (bs : List Byte) (rest : List Input) : Prop where
  fsm   : t.fsm = .reading
  cnt   : t.cnt = s.cnt + bs.length
  input : t.input = rest
  view  : t.view = s.view
  trace : t.trace = s.trace
  older : ∀ a, a < s.cnt → bufRead t.buf a = bufRead s.buf a
  newer : ∀ i, i < bs.length → bufRead t.buf (s.cnt + i) = bs[i]?

/-- The words of bytes that fit in the buffer are received one a step. -/
theorem runSteps_receive (bs : List Byte) (s : State) (rest : List Input) (hf : s.fsm = .reading)
    (hn : s.cnt + bs.length ≤ 18) (hin : s.input = bs.map wordRxb ++ rest) :
    ∃ t, runSteps bs.length s = .next t ∧ Received s t bs rest := by
  induction bs generalizing s with
  | nil => exact ⟨s, rfl, ⟨hf, rfl, hin, rfl, rfl, fun _ _ => rfl, fun _ hi => absurd hi (Nat.not_lt_zero _)⟩⟩
  | cons b bs ih =>
    rw [List.length_cons] at hn
    have hx : nextInput s = wordRxb b := by simp [nextInput, hin]
    obtain ⟨t, hrun, ht⟩ := ih (setCnt (s.cnt + 1) (setBuf (bufWrite s.buf s.cnt b) (beginStep s))) hf
      (by simp only [setCnt_cnt]; omega) (by simp [hin])
    have hold : ∀ a, a < s.cnt + 1 → bufRead t.buf a = bufRead (bufWrite s.buf s.cnt b) a := ht.older
    refine ⟨t, (runSteps_next (step_wordRxb hx hf (by omega))).trans hrun, ht.fsm, ?cnt, ht.input, ht.view, ht.trace,
      fun a ha => ?older, fun i hi => ?newer⟩
    case cnt => rw [ht.cnt, setCnt_cnt, List.length_cons]; omega
    case older => rw [hold a (by omega), bufRead_write_other _ _ ha.ne]
    case newer =>
      cases i with
      | zero => rw [Nat.add_zero, hold _ (by omega), bufRead_write_same]; rfl
      | succ i =>
        have hnew : bufRead t.buf (s.cnt + 1 + i) = bs[i]? := ht.newer i (by simpa using hi)
        rw [List.getElem?_cons_succ, ← hnew]
        congr 1
        omega

/-- A frame has been judged from `s` on, and `rest` is still presented. -/
structure Judged (s t : State) (bs : List Byte) (rest : List Input) : Prop where
  input  : t.input = rest
  cnt    : t.cnt = 0
  cells  : ∀ a, a < 18 → bufRead t.buf a = bs[a]?
  accept : corruptFrame (frameOf bs) = false → t.fsm = .reading ∧ t.view = some (unpackFrame (frameOf bs)) ∧
    t.trace = s.trace ++ [.pub (unpackFrame (frameOf bs))]
  reject : corruptFrame (frameOf bs) = true → t.fsm = .recovering ∧ t.view = s.view ∧ t.trace = s.trace ++ [.resync]

/-- An `EVAL` once the eighteen bytes of a frame are received. -/
theorem judged_evalResult {s u : State} {bs : List Byte} {rest : List Input} (hn : s.cnt = 0) (hl : bs.length = 18)
    (hu : Received s u bs (wordNone :: rest)) : Judged s (evalResult (frameOf bs) (beginStep u)) bs rest where
  input := by
    have hrest : (beginStep u).input = rest := by rw [beginStep_input, hu.input, List.tail_cons]
    unfold evalResult
    split <;> exact hrest
  cnt := by unfold evalResult; split <;> rfl
  cells a ha := by
    rw [evalResult_buf, beginStep_buf, ← hu.newer a (by omega), hn, Nat.zero_add]
  accept hc := by
    rw [evalResult_trace_accept _ hc, evalResult_accept hc]
    exact ⟨hu.fsm, rfl, congrArg (· ++ _) hu.trace⟩
  reject hc := by
    rw [evalResult_trace_reject _ hc, evalResult_reject hc]
    exact ⟨rfl, hu.view, congrArg (· ++ _) hu.trace⟩

/-- `SEND` from `(READING, 0)`: eighteen steps receive the frame, the nineteenth judges it. -/
theorem runSteps_send {s : State} {bs : List Byte} {rest : List Input} (hf : s.fsm = .reading) (hn : s.cnt = 0)
    (hl : bs.length = 18) (hin : s.input = scriptSend bs ++ rest) :
    ∃ t, runSteps 19 s = .next t ∧ Judged s t bs rest := by
  obtain ⟨u, hrun, hu⟩ := runSteps_receive bs s (wordNone :: rest) hf (by omega) (by simpa [scriptSend] using hin)
  have hframe : bufFrame u.buf = some (frameOf bs) := bufFrame_of_bytes hl fun i hi => by
    simpa [hn] using hu.newer i (by omega)
  have hx : nextInput u = .evt 0 := by rw [nextInput, hu.input]; rfl
  have heval : step u = .next (evalResult (frameOf bs) (beginStep u)) :=
    (step_evt hx).trans (runCycle_eval (by decide) hu.fsm (by simp [hu.cnt, hn, hl]) hframe)
  rw [hl] at hrun
  exact ⟨_, (runSteps_add 1 hrun).trans (runSteps_next heval), judged_evalResult hn hl hu⟩

/-- Settles O47: `runSteps_send`, whose `Judged` is the claim. -/
theorem oneIterationJudgesOneFrame : Obligations.OneIterationJudgesOneFrame := by
  intro s bs rest hf hn hl hin
  obtain ⟨t, hrun, ht⟩ := runSteps_send hf hn hl hin
  exact ⟨t, hrun, ht.input, ht.cnt, ht.cells, ht.accept, ht.reject⟩

/-- `SENDR` of a corrupted frame from `(READING, 0)`: one `RESYNC`, and back to `(READING, 0)`. -/
theorem runSteps_sendr_corrupt {s : State} {bs : List Byte} {rest : List Input} (hf : s.fsm = .reading)
    (hn : s.cnt = 0) (hl : bs.length = 18) (hc : corruptFrame (frameOf bs) = true)
    (hin : s.input = scriptSendr bs ++ rest) :
    ∃ t, runSteps 20 s = .next t ∧ t.fsm = .reading ∧ t.cnt = 0 ∧ t.input = rest ∧ t.trace = s.trace ++ [.resync] := by
  obtain ⟨u, hrun, hu⟩ := runSteps_send (rest := wordResume :: rest) hf hn hl (by simpa [scriptSendr] using hin)
  obtain ⟨hrec, -, htrace⟩ := hu.reject hc
  have hx : nextInput u = .evt 0x200 := by rw [nextInput, hu.input]; rfl
  have hs : selectEvt u.fsm u.cnt 0x200 = .op .resume := by rw [hrec]; exact selectEvt_resume (by decide) (by decide) _
  have hstep : step u = .next (returnFromRecovery (beginStep u)) := (step_op hx hs).trans (exec_resume_enabled hrec)
  exact ⟨_, (runSteps_add 1 hrun).trans (runSteps_next hstep), rfl, hu.cnt, by simp [hu.input], htrace⟩

/-- Corrupted frames, each followed by `RESUME`, add one `RESYNC` each. -/
theorem runSteps_corruptFrames (frames : List (List Byte)) (s : State) (rest : List Input) (hf : s.fsm = .reading)
    (hn : s.cnt = 0) (hbad : ∀ bs ∈ frames, bs.length = 18 ∧ corruptFrame (frameOf bs) = true)
    (hin : s.input = frames.flatMap scriptSendr ++ rest) :
    ∃ t, runSteps (20 * frames.length) s = .next t ∧ t.fsm = .reading ∧ t.cnt = 0 ∧ t.input = rest ∧
      t.trace = s.trace ++ List.replicate frames.length .resync := by
  induction frames generalizing s with
  | nil => exact ⟨s, rfl, hf, hn, hin, by simp⟩
  | cons bs frames ih =>
    obtain ⟨hl, hc⟩ := hbad bs List.mem_cons_self
    obtain ⟨u, hrun, huf, hun, huin, hutrace⟩ :=
      runSteps_sendr_corrupt (rest := frames.flatMap scriptSendr ++ rest) hf hn hl hc (by simp [hin])
    obtain ⟨t, hrun', htf, htn, htin, httrace⟩ := ih u huf hun (fun bs h => hbad bs (List.mem_cons_of_mem _ h)) huin
    refine ⟨t, ?_, htf, htn, htin, ?_⟩
    · rw [List.length_cons, Nat.mul_succ, Nat.add_comm, runSteps_add _ hrun, hrun']
    · rw [httrace, hutrace, List.length_cons, List.replicate_succ, List.append_assoc, List.singleton_append]

/-- Settles O48: every corrupted frame with its `RESUME` adds one `RESYNC`, and the last one without it leaves the block
in `RECOVERING`. -/
theorem corruptedFramesGiveOnlyResyncs : Obligations.CorruptedFramesGiveOnlyResyncs := by
  refine ⟨fun s frames hf hn htr hbad hin => ?allResumed, fun s frames last hf hn htr hbad hin => ?lastInRecovery⟩
  case allResumed =>
    obtain ⟨t, hrun, htf, htn, -, htrace⟩ := runSteps_corruptFrames frames s [] hf hn hbad (by simp [hin])
    exact ⟨t, hrun, htf, htn, by simpa [htr] using htrace⟩
  case lastInRecovery =>
    obtain ⟨hl, hc⟩ := hbad last (by simp)
    obtain ⟨u, hrun, huf, hun, huin, hutrace⟩ :=
      runSteps_corruptFrames frames s (scriptSend last) hf hn (fun bs h => hbad bs (by simp [h])) hin
    obtain ⟨t, hrun', ht⟩ := runSteps_send (rest := []) huf hun hl (by simp [huin])
    obtain ⟨hrec, -, htrace⟩ := ht.reject hc
    refine ⟨t, (runSteps_add 19 hrun).trans hrun', hrec, ht.cnt, ?_⟩
    rw [htrace, hutrace, htr, List.replicate_succ', List.nil_append]

/-- Settles O49: `SENDR` of the corrupted frame, then `SEND` of the valid one. -/
theorem corruptedThenValidPublishesTheValid : Obligations.CorruptedThenValidPublishesTheValid := by
  intro s bad good hf hn htr hlb hlg hcb hcg hin
  obtain ⟨u, hrun, huf, hun, huin, hutrace⟩ := runSteps_sendr_corrupt hf hn hlb hcb hin
  obtain ⟨t, hrun', ht⟩ := runSteps_send (rest := []) huf hun hlg (by simp [huin])
  obtain ⟨-, -, htrace⟩ := ht.accept hcg
  refine ⟨t, (runSteps_add 19 hrun).trans hrun', ?_⟩
  rw [htrace, hutrace, htr]
  rfl

end Sys2Proof.Machine
end
